-- ==== Sys2Proof/Syntax.lean ====
section
/-! DEFINITION. The block's instruction set: the four commands of rule R46 (30_encoding.md), one constructor per row
of spec/opcode_table.json. A command has no operand field, no register field and no immediate (R47). -/

namespace Sys2Proof

/-- The four commands (R46). -/
inductive Instr where
  /-- ENCODE, `OP` = 00: R75 of 41_encode.md. -/
  | encode
  /-- DECODE, `OP` = 01: R89 of 42_decode.md. -/
  | decode
  /-- TRYDECODE, `OP` = 10: R90 of 42_decode.md. -/
  | tryDecode
  /-- ISVALID, `OP` = 11: R104 of 43_isvalid.md. -/
  | isValid
deriving DecidableEq, Repr

end Sys2Proof
end

