-- ==== Sys2Proof/WellFormed.lean ====
section
/-! DEFINITION. Well-formed commands. A command word has one field, `OP`, and all four of its values are assigned
(R45, R47, R48 of 30_encoding.md), so there is nothing to check of a command and every one is well formed. What can be
ill formed is a host action whose index or length has more bits than its port: that check stands where the step uses
it, `actionFits` and `portsFit` of Sys2Proof/Machine/HostPort.lean. -/

namespace Sys2Proof

/-- Every command is well formed: no operand to check (R47), no reserved encoding (R48). -/
def Instr.wellFormed : Instr → Bool
  | .encode => true
  | .decode => true
  | .tryDecode => true
  | .isValid => true

end Sys2Proof
end

