-- ==== Sys2Proof/Decode.lean ====
section
/-! DEFINITION. The command word (R45, R46 of 30_encoding.md): its decoder, total since every value of `OP` is
assigned (R48), and its encoder. -/

namespace Sys2Proof

/-- The command word carried by a wider register write: bits [1:0] of `reg_wdata`; the bits above are ignored, not
stored, and make nothing illegal (R45, U17). -/
def commandWord (wdata : Nat) : BitVec 2 := BitVec.ofNat 2 wdata

/-- The opcode map of R46, read from the word. Total: there is no illegal command (R48). -/
def decodeCommand (op : BitVec 2) : Instr :=
  if op = 0b00#2 then .encode
  else if op = 0b01#2 then .decode
  else if op = 0b10#2 then .tryDecode
  else .isValid

/-- The instruction of a table word of `nbits` bits. The command word is 2 bits wide; any bits above it are ignored
(R45), and the decoder refuses nothing (R48). -/
def decodeTableWord (nbits w : Nat) : Option Instr :=
  some (decodeCommand (commandWord (w % 2 ^ nbits)))

/-- The command word of a command: the `bits` column of R46. -/
def encode : Instr → BitVec 2
  | .encode => 0b00#2
  | .decode => 0b01#2
  | .tryDecode => 0b10#2
  | .isValid => 0b11#2

end Sys2Proof
end

