-- ==== Sys2Proof/Word.lean ====
section
/-! DEFINITION. The widths of the data the block moves (rule R5 of 00_scope.md): cells and character codes of 8
bits, symbols of 6 bits, and how many elements of a group are present (rules R70, R85). -/

namespace Sys2Proof

/-- One buffer cell, a byte or a character code: `BYTEW` = `CHARW` = 8 (R5, R30, R52). -/
abbrev Byte := BitVec 8

/-- One symbol, an index into the alphabet: `SYMW` = 6 (R5). -/
abbrev Sym := BitVec 6

/-- The operand `r` of `SYMX` and `PADS`: the bytes really present in an encode group (R70). -/
inductive BytesPresent where
  | one
  | two
  | three
deriving DecidableEq, Repr

/-- The operand `r` of `RCMB`: the characters really present in a decode group (R85). -/
inductive CharsPresent where
  | one
  | two
  | three
  | four
deriving DecidableEq, Repr

end Sys2Proof
end

