-- ==== Sys2Proof/Config.lean ====
section
/-! DEFINITION. What the spec leaves open and what an implementation fixes. `LENW` and the interleaving of the two
agents are plain data of `State` (fields `lenw` and `schedule`), so that a statement about every state holds for each
of their values; here stand the free value of an unspecified `OUT` read, the number of `LENW` the model's reset state
carries, and the whitespace set that no result depends on. -/

namespace Sys2Proof.Config

/-- The free value of the `n`-th read of an `OUT` cell that holds no value: any 8 bits, one draw for each read (R41,
U7). It has no body to reason from. Log entry 3. -/
opaque freeByte : Nat → Byte

/-- DESIGN CHOICE (log entry 1): the `LENW` that `State.reset` carries. The spec leaves `LENW` open, `LENW >= 2` (R5,
U11); every `lenw` is some state's. -/
def resetLenw : Nat := 16

/-- `WS`, the codes called whitespace (R5, D16). No result depends on it (R103, U14). -/
def whitespace : List Byte := [0x09#8, 0x0A#8, 0x0B#8, 0x0C#8, 0x0D#8, 0x20#8]

end Sys2Proof.Config
end

