-- ==== Sys2Proof/HostSyntax.lean ====
section
/-! DEFINITION. What the host can do to the block, as data: the host actions of R54 and R55 (30_encoding.md), the port
values of one clock edge (R26 of 10_state.md), the pseudo-instructions of R57, and what a read returned. A list of
`HostMove` in the state is the host's program (R56, R135): the input the step reads. -/

namespace Sys2Proof

/-- One host action: the six of R55, and the four other register accesses that R19 and R54 allow. -/
inductive HostAction where
  /-- `WIN i, v`: write `v` to `IN[i]`. -/
  | win (i : Nat) (v : Byte)
  /-- `WLEN n`: write `n` to `INLEN`. -/
  | wlen (n : Nat)
  /-- `START op`: write `op` to `CMD`. -/
  | start (op : BitVec 2)
  /-- `RSTAT`: read `STATUS`. -/
  | rstat
  /-- `RLEN`: read `OUTLEN`. -/
  | rlen
  /-- `ROUT i`: read `OUT[i]`. -/
  | rout (i : Nat)
  /-- A read of `CMD` (R54, last paragraph). -/
  | rcmd
  /-- A read of `INLEN` (R54, last paragraph). -/
  | rinlen
  /-- A write to the read-only `STATUS` (R19, R130). -/
  | wstatus (v : Nat)
  /-- A write to the read-only `OUTLEN` (R19, R130). -/
  | woutlen (v : Nat)
deriving DecidableEq, Repr

/-- The input ports at one rising edge of `clk` (R26). The three wide ones are numbers because their widths follow
`LENW`; `portsFit` of Machine/HostPort.lean says that the wires can carry them. -/
structure Ports where
  /-- `rst_n`: false resets the block at this edge (R125). -/
  rstN : Bool
  regWe : Bool
  regSel : BitVec 2
  regWdata : Nat
  inWe : Bool
  inIdx : Nat
  inData : Byte
  outIdx : Nat
deriving DecidableEq, Repr

/-- One item of a host program (R56). -/
inductive HostMove where
  /-- One host action (R55). -/
  | act (a : HostAction)
  /-- One rising edge with these port values: the actions they encode, together (R26, R54). -/
  | edge (p : Ports)
  /-- `rst_n = 0` at one rising edge (R125). -/
  | reset
  /-- `WAIT` (R57): `RSTAT` until it returns `DONE = 1`. -/
  | wait
  /-- `READ` (R57): `RLEN` giving `m`, then `ROUT 0` to `ROUT m-1`. -/
  | read
  /-- The end of the `decode` call of R57: `RSTAT`, and `READ` unless `ERR = 1`. -/
  | readUnlessErr
  /-- `COPYBACK` (R57). -/
  | copyback
  /-- `COPYBACK` on its way: the values `ys` of `m` have been read. -/
  | copyOut (m : Nat) (ys : List Byte)
deriving DecidableEq, Repr

/-- What one read returned to the host (R54). -/
inductive HostRead where
  /-- `reg_rdata` for register number `sel` (R19). -/
  | reg (sel : BitVec 2) (value : Nat)
  /-- `out_data` for index `i`. -/
  | cell (i : Nat) (value : Byte)
deriving DecidableEq, Repr

end Sys2Proof
end

