-- ==== Sys2Proof/Machine/State.lean ====
section
/-! DEFINITION. The block's state (10_state.md), the reasons a step can stop, and the state after reset. The
alphabet and reverse tables are constants, not state (R23); there is no general register, no program counter and no
hidden state (R10, R11, R24). -/

namespace Sys2Proof.Machine

/-- Why the block stops with a fault. -/
inductive Fault where
  /-- Raised by each of the four commands when some cell `IN[i]`, `i < INLEN`, has not been written since reset: R40,
  R132 ("a model should fault it"), U8. Safe: the spec gives such a command no result. -/
  | unwrittenOperandCell
  /-- Raised by a host action, or a clock edge, whose index or length has more bits than the wires that carry it (R26,
  and the ranges of R55): no such move exists on the block. Safe: nothing is said of it. Log entry 6. -/
  | portTooNarrow
deriving DecidableEq, Repr

/-- Why the model gives no meaning. Every command has one, so nothing is refused. -/
inductive Refusal where
  /-- Raised by an arm of `exec` whose instruction has no meaning yet: none. Safe. -/
  | notModelled (mnemonic : String)
deriving DecidableEq, Repr

/-- A buffer of which some cells hold a value: (index, value) pairs, indices strictly rising. An unlisted cell holds
no value (R40), so no entry can equal what an unlisted cell reads as. -/
abbrev Memory := List Host.Cell

/-- The block, and the host's side of it. -/
structure State where
  /-- `LENW`, the width of `INLEN`: fixed for one block, and no step changes it (R5). -/
  lenw : Nat
  /-- `IN`, the input buffer of `2^LENW` cells (R12). -/
  inBuf : Memory
  /-- `INLEN`, `LENW` bits (R14). -/
  inlen : Nat
  /-- `OUT`, the output buffer of `2^(LENW+1)` cells, as the sequence of the cells that hold a value (R13, R41). -/
  out : List Byte
  /-- `OUTLEN`, `LENW + 1` bits (R15). -/
  outlen : Nat
  /-- `CMD`, the command register, holding `OP` (R16). -/
  cmd : BitVec 2
  /-- `STATUS`: `BUSY` [0], `DONE` [1], `OK` [2], `ERR` [3] (R17). -/
  status : BitVec 4
  /-- The model's own: the interleaving of the two agents while `BUSY = 1`, as data. Each such step takes one entry,
  true for a move of the host and false for the completion step; when the list is used up the engine moves, so a
  command always completes (R37, R134). Log entry 2. -/
  schedule : List Bool
  /-- The model's own: the moves the host has still to make, first one first (R135). Log entry 4. -/
  pending : List HostMove
  /-- The model's own: what the host's reads returned, last one first. Log entry 4. -/
  returned : List HostRead
  /-- The model's own: how many free values have been drawn. Log entry 3. -/
  draws : Nat
deriving DecidableEq, Repr

/-- The reset state of R25 for a block of this `LENW`, with a host that has nothing to do. -/
def State.resetOf (lenw : Nat) : State where
  lenw := lenw
  inBuf := []
  inlen := 0
  out := []
  outlen := 0
  cmd := 0#2
  status := 0#4
  schedule := []
  pending := []
  returned := []
  draws := 0

/-- The state right after reset (R25, R125). The four model's own fields and `lenw` are DESIGN CHOICE: log entries 1
to 4. -/
def State.reset : State := State.resetOf Config.resetLenw

end Sys2Proof.Machine
end

