-- ==== Sys2Proof/Machine/Luts.lean ====
section
/-! DEFINITION. The two look-up units (40_alphabet_luts.md): `ALUT` and `RLUT`, over the alphabet table of R60. The
table is a constant of the step, not state (R23). -/

namespace Sys2Proof.Machine

/-- `ALPHABET[0..63]`, the table of R60 (D3), index 0 first. -/
def alphabet : List Byte :=
  [0x41#8, 0x42#8, 0x43#8, 0x44#8, 0x45#8, 0x46#8, 0x47#8, 0x48#8,
   0x49#8, 0x4A#8, 0x4B#8, 0x4C#8, 0x4D#8, 0x4E#8, 0x4F#8, 0x50#8] ++
  [0x51#8, 0x52#8, 0x53#8, 0x54#8, 0x55#8, 0x56#8, 0x57#8, 0x58#8,
   0x59#8, 0x5A#8, 0x61#8, 0x62#8, 0x63#8, 0x64#8, 0x65#8, 0x66#8] ++
  [0x67#8, 0x68#8, 0x69#8, 0x6A#8, 0x6B#8, 0x6C#8, 0x6D#8, 0x6E#8,
   0x6F#8, 0x70#8, 0x71#8, 0x72#8, 0x73#8, 0x74#8, 0x75#8, 0x76#8] ++
  [0x77#8, 0x78#8, 0x79#8, 0x7A#8, 0x30#8, 0x31#8, 0x32#8, 0x33#8,
   0x34#8, 0x35#8, 0x36#8, 0x37#8, 0x38#8, 0x39#8, 0x2B#8, 0x2F#8]

/-- The table has an entry for every 6-bit index, so `alut` is total. -/
theorem alphabet_length : alphabet.length = 64 := by decide

/-- `PAD`, the code of the padding symbol `=` (R62). -/
def padCode : Byte := 0x3D#8

/-- `ALUT(s)` (R61). -/
def alut (s : Sym) : Byte := alphabet[s.toNat]'(by rw [alphabet_length]; exact s.isLt)

/-- `RLUT(c) = (hit, idx)` (R63): the index at which the alphabet holds `c`, and (0, 0) where it holds it nowhere. The
source's scan; the block's 256-entry table holds the same values (R65). -/
def rlut (c : Byte) : Bool × Sym :=
  match alphabet.findIdx? (fun x => x == c) with
  | some k => (true, BitVec.ofNat 6 k)
  | none => (false, 0#6)

/-- The reverse ROM of R30 and R65: 256 entries of 7 bits, entry `c` holding `RLUT(c)`. An entry is the pair of the
1-bit `hit` and the 6-bit `idx`. The spec does not say where in a stored word they lie, and neither does the model. -/
def reverseRom : List (Bool × Sym) := (List.range 256).map fun c => rlut (BitVec.ofNat 8 c)

/-- `InAlphabet(c)` (R64). -/
def inAlphabet (c : Byte) : Bool := (rlut c).1

/-- The class of a character code (R53). -/
inductive CharClass where
  | symbol
  | padding
  | other
deriving DecidableEq, Repr

/-- R53: every code falls in exactly one class. -/
def charClass (c : Byte) : CharClass :=
  if inAlphabet c then .symbol else if c = padCode then .padding else .other

end Sys2Proof.Machine
end

