-- ==== Sys2Proof/Machine/Flags.lean ====
section
/-! DEFINITION. The status register: its word and its four flags (R17 of 10_state.md), and the two pins that copy
flags (R121 of 60_exceptions.md). -/

namespace Sys2Proof.Machine

/-- The word of `STATUS`, `ERR ‖ OK ‖ DONE ‖ BUSY` (R17, R54). -/
def statusWord (err ok done busy : Bool) : BitVec 4 :=
  BitVec.ofBool err ++ BitVec.ofBool ok ++ BitVec.ofBool done ++ BitVec.ofBool busy

/-- `STATUS.BUSY`, bit 0. -/
def State.busy (s : State) : Bool := s.status.getLsbD 0

/-- `STATUS.DONE`, bit 1. -/
def State.done (s : State) : Bool := s.status.getLsbD 1

/-- `STATUS.OK`, bit 2. -/
def State.ok (s : State) : Bool := s.status.getLsbD 2

/-- `STATUS.ERR`, bit 3. -/
def State.err (s : State) : Bool := s.status.getLsbD 3

/-- The flags while a command runs (R20, R131): `BUSY` only. -/
def statusRunning : BitVec 4 := statusWord false false false true

/-- The flags a completion step leaves (R21): `DONE`, with the command's `OK` and `ERR`. -/
def statusCompleted (ok err : Bool) : BitVec 4 := statusWord err ok true false

/-- The output pin `done_o` (R121). -/
def donePin (s : State) : Bool := s.done

/-- The output pin `err_o` (R121). -/
def errPin (s : State) : Bool := s.err

end Sys2Proof.Machine
end

