-- ==== Sys2Proof/Machine/Ops.lean ====
section
/-! DEFINITION. The operations every meaning is made of: single-cell accesses of the buffers (20_memory.md), the
register port's read (R26), the START step (R20), the publication of a result (R21), taking the one exception (R116)
and the reset of the block (R125). -/

namespace Sys2Proof.Machine

/-! ## The buffers -/

/-- `IN_DEPTH` (R5): the cells of `IN`. -/
abbrev inDepth (lenw : Nat) : Nat := 2 ^ lenw

/-- `OUT_DEPTH` (R5): the cells of `OUT`. -/
abbrev outDepth (lenw : Nat) : Nat := 2 ^ (lenw + 1)

/-- The canonical form of a buffer: indices strictly rising. An unlisted cell holds no value, so no entry can repeat
what it reads as. -/
def Memory.wf : Memory → Bool
  | [] => true
  | [_] => true
  | x :: y :: m => decide (x.1 < y.1) && Memory.wf (y :: m)

/-- `MemRead(IN, i, 1)` (R7): the cell's value, none for a cell that holds no value (R40). -/
def memRead : Memory → Nat → Option Byte
  | [], _ => none
  | c :: m, i => if c.1 = i then some c.2 else memRead m i

/-- One cell written (R35), the canonical form kept. -/
def memWrite : Memory → Nat → Byte → Memory
  | [], i, v => [(i, v)]
  | c :: m, i, v =>
    if i < c.1 then (i, v) :: c :: m
    else if i = c.1 then (i, v) :: m
    else c :: memWrite m i v

/-- `OUT[i]`: a cell at index `OUTLEN` or above holds no value (R13, R41). -/
def outRead (s : State) (i : Nat) : Option Byte :=
  if i < s.outlen then s.out[i]? else none

/-! ## The register port -/

/-- `reg_rdata` for register number `sel` (R19, R26): `CMD`, `INLEN`, `STATUS`, `OUTLEN`, zero-extended. -/
def regRead (s : State) (sel : BitVec 2) : Nat :=
  if sel = 0#2 then s.cmd.toNat
  else if sel = 1#2 then s.inlen
  else if sel = 2#2 then s.status.toNat
  else s.outlen

/-! ## The two steps that change a command's state -/

/-- START (R20): with `BUSY = 0` the command is latched, the flags cleared but `BUSY`, and the previous result gone;
with `BUSY = 1` nothing happens (R130). -/
def startCommand (s : State) (op : BitVec 2) : State :=
  if s.busy then s
  else { s with cmd := op, status := statusRunning, out := [], outlen := 0 }

/-- What every completion step publishes (R21): the result `R` in `OUT[0..length R)`, its length, the flags `OK` and
`ERR`, `DONE` set and `BUSY` cleared. `IN`, `INLEN` and `CMD` are not changed (D15). -/
def publish (s : State) (R : List Byte) (ok err : Bool) : State :=
  { s with out := R, outlen := R.length, status := statusCompleted ok err }

/-- Taking the exception `InvalidEncoding` (R110, R116): no result, `OK = 0`, `ERR = 1`, `DONE = 1`, `BUSY = 0`.
Nothing is saved and no control is transferred. There is no return from it: `ERR` stays until the next START or reset
(R117). -/
def raiseInvalidEncoding (s : State) : State := publish s [] false true

/-- The reset of the block (R125, R126): every field the block has takes the value of R25, also while a command runs.
`LENW` is the block's width; the host's program, its record of reads and the model's counters are not the block's. -/
def resetBlock (s : State) : State :=
  { s with inBuf := [], inlen := 0, out := [], outlen := 0, cmd := 0#2, status := 0#4 }

end Sys2Proof.Machine
end

