-- ==== Sys2Proof/Machine/Operands.lean ====
section
/-! DEFINITION. The one operand form of the four commands (R47 of 30_encoding.md): the implicit source
`IN[0..INLEN)`. -/

namespace Sys2Proof.Machine

/-- The `n` cells from index `i` on, or none when one of them holds no value (R40). -/
def readCells (m : Memory) : Nat → Nat → Option (List Byte)
  | _, 0 => some []
  | i, n + 1 =>
    match memRead m i, readCells m (i + 1) n with
    | some b, some bs => some (b :: bs)
    | _, _ => none

/-- The operand `X = [IN[0], ..., IN[INLEN-1]]` of R21. -/
def readOperand (s : State) : Option (List Byte) := readCells s.inBuf 0 s.inlen

/-- A completion step on its operand: a command whose operand holds an unwritten cell has no meaning, and the model
faults it (R40, R132). -/
def onOperand (s : State) (f : List Byte → State) : Host.Outcome State Fault Refusal :=
  match readOperand s with
  | none => .fault .unwrittenOperandCell
  | some X => .next (f X)

end Sys2Proof.Machine
end

