-- ==== Sys2Proof/Machine/Validator.lean ====
section
/-! DEFINITION. The padding validator (43_isvalid.md): the effective length, the validity predicate, the unit `PVAL`
and the command ISVALID. -/

namespace Sys2Proof.Machine

/-- Whether the last of the first `e` characters of `T` is there and is `PAD`. -/
def padAt (T : List Byte) (e : Nat) : Bool := decide (1 ≤ e) && (T[e - 1]? == some padCode)

/-- `EffLen(T)` (R100): up to two trailing `PAD` set aside, the second only after a first. -/
def effLen (T : List Byte) : Nat :=
  if padAt T T.length then
    if padAt T (T.length - 1) then T.length - 2 else T.length - 1
  else T.length

/-- `IsValid(T)` (R101): not empty, not starting with `PAD`, and all of the effective-length part in the alphabet.
Neither the length nor the count of `PAD` is compared with anything (R105). -/
def isValidText (T : List Byte) : Bool :=
  match T with
  | [] => false
  | c :: _ => if c = padCode then false else (T.take (effLen T)).all inAlphabet

/-- The unit `PVAL` (R106): the pair `(valid, e)`. -/
def pval (T : List Byte) : Bool × Nat := (isValidText T, effLen T)

/-- ISVALID, its completion step (R104): the answer is `OK`; there is no output sequence and never an exception. -/
def execIsValid (s : State) : Host.Outcome State Fault Refusal :=
  onOperand s fun T => publish s [] (isValidText T) false

end Sys2Proof.Machine
end

