-- ==== Sys2Proof/Machine/Decoder.lean ====
section
/-! DEFINITION. The decoder (42_decode.md): the recombiner `RCMB`, one group, the whole message, and the commands
DECODE and TRYDECODE. -/

namespace Sys2Proof.Machine

/-- `byte0` of R85: `i0[5:0] ‖ i1[5:4]`. -/
def rcmbByte0 (i0 i1 : Sym) : Byte := (i0.setWidth 8 <<< 2) ||| (i1.setWidth 8 >>> 4)

/-- `byte0'` of R85, from a group of one character: `i0[5:0] ‖ 00`. -/
def rcmbByte0Alone (i0 : Sym) : Byte := i0.setWidth 8 <<< 2

/-- `byte1` of R85: `i1[3:0] ‖ i2[5:2]`. -/
def rcmbByte1 (i1 i2 : Sym) : Byte := ((i1.setWidth 8 &&& 0x0F#8) <<< 4) ||| (i2.setWidth 8 >>> 2)

/-- `byte2` of R85: `i2[1:0] ‖ i3[5:0]`. -/
def rcmbByte2 (i2 i3 : Sym) : Byte := ((i2.setWidth 8 &&& 0x03#8) <<< 6) ||| i3.setWidth 8

/-- `RCMB(i0, i1, i2, i3, r)` (R85): 1, 1, 2 or 3 bytes; inputs beyond the `r`-th are not read. -/
def rcmb (i0 i1 i2 i3 : Sym) : CharsPresent → List Byte
  | .four => [rcmbByte0 i0 i1, rcmbByte1 i1 i2, rcmbByte2 i2 i3]
  | .three => [rcmbByte0 i0 i1, rcmbByte1 i1 i2]
  | .two => [rcmbByte0 i0 i1]
  | .one => [rcmbByte0Alone i0]

/-- `DecGroup(c0, c1, c2, c3, r)` (R86): only the `idx` output of `RLUT` is used. -/
def decGroup (c0 c1 c2 c3 : Byte) (r : CharsPresent) : List Byte :=
  rcmb (rlut c0).2 (rlut c1).2 (rlut c2).2 (rlut c3).2 r

/-- The group loop of R87 over the effective-length part of a text. -/
def decodeGroups : List Byte → List Byte
  | [] => []
  | [c0] => decGroup c0 0#8 0#8 0#8 .one
  | [c0, c1] => decGroup c0 c1 0#8 0#8 .two
  | [c0, c1, c2] => decGroup c0 c1 c2 0#8 .three
  | c0 :: c1 :: c2 :: c3 :: T => decGroup c0 c1 c2 c3 .four ++ decodeGroups T

/-- `DecodeRaw(T)` (R87). -/
def decodeRaw (T : List Byte) : List Byte := decodeGroups (T.take (effLen T))

/-- The group's `r` (R87) from `min(4, e - 4g)`, the characters left for it. -/
def charsLeft (left : Nat) : CharsPresent :=
  if left = 1 then .one else if left = 2 then .two else if left = 3 then .three else .four

/-- DECODE, its completion step (R89): an invalid text raises `InvalidEncoding`. -/
def execDecode (s : State) : Host.Outcome State Fault Refusal :=
  onOperand s fun T =>
    if isValidText T then publish s (decodeRaw T) true false else raiseInvalidEncoding s

/-- TRYDECODE, its completion step (R90): an invalid text is the answer `OK = 0`, never an exception. -/
def execTryDecode (s : State) : Host.Outcome State Fault Refusal :=
  onOperand s fun T =>
    if isValidText T then publish s (decodeRaw T) true false else publish s [] false false

end Sys2Proof.Machine
end

