-- ==== Sys2Proof/Machine/Encoder.lean ====
section
/-! DEFINITION. The encoder (41_encode.md): the symbol extractor `SYMX`, the padding stage `PADS`, one group, the
whole message, and the command ENCODE. -/

namespace Sys2Proof.Machine

/-- The four 6-bit symbols of a group. -/
abbrev Symbols := Sym × Sym × Sym × Sym

/-- `SYMX` on three bytes, the four formulae of R70. -/
def symxFull (b0 b1 b2 : Byte) : Symbols :=
  ((b0 >>> 2).setWidth 6,
   (((b0 &&& 0x03#8) <<< 4) ||| (b1 >>> 4)).setWidth 6,
   (((b1 &&& 0x0F#8) <<< 2) ||| (b2 >>> 6)).setWidth 6,
   (b2 &&& 0x3F#8).setWidth 6)

/-- `SYMX(b0, b1, b2, r)` (R70, R71): an absent byte is not read and counts as 0. -/
def symx (b0 b1 b2 : Byte) : BytesPresent → Symbols
  | .three => symxFull b0 b1 b2
  | .two => symxFull b0 b1 0#8
  | .one => symxFull b0 0#8 0#8

/-- `PADS(c0, c1, c2, c3, r)` (R72), the group's four characters in order. -/
def pads (c0 c1 c2 c3 : Byte) : BytesPresent → List Byte
  | .three => [c0, c1, c2, c3]
  | .two => [c0, c1, c2, padCode]
  | .one => [c0, c1, padCode, padCode]

/-- `EncGroup(b0, b1, b2, r)` (R73). -/
def encGroup (b0 b1 b2 : Byte) (r : BytesPresent) : List Byte :=
  match symx b0 b1 b2 r with
  | (s0, s1, s2, s3) => pads (alut s0) (alut s1) (alut s2) (alut s3) r

/-- `Encode(B)` (R74): group by group, the last one possibly short. -/
def encodeMsg : List Byte → List Byte
  | [] => []
  | [b0] => encGroup b0 0#8 0#8 .one
  | [b0, b1] => encGroup b0 b1 0#8 .two
  | b0 :: b1 :: b2 :: B => encGroup b0 b1 b2 .three ++ encodeMsg B

/-- The group's `r` (R74) from `min(3, n - 3g)`, the bytes left for it. -/
def bytesLeft (left : Nat) : BytesPresent :=
  if left = 1 then .one else if left = 2 then .two else .three

/-- ENCODE, its completion step (R75): it cannot fail. -/
def execEncode (s : State) : Host.Outcome State Fault Refusal :=
  onOperand s fun B => publish s (encodeMsg B) true false

end Sys2Proof.Machine
end

