-- ==== Sys2Proof/Machine/Dispatch.lean ====
section
/-! DEFINITION. The meaning of each command: one arm per constructor of `Instr`. -/

namespace Sys2Proof.Machine

/-- The completion step of a command (R21): a next state, or the fault of an unwritten operand cell. -/
def exec (i : Instr) (s : State) : Host.Outcome State Fault Refusal :=
  match i with
  | .encode => Sys2Proof.Machine.execEncode s
  | .decode => Sys2Proof.Machine.execDecode s
  | .tryDecode => Sys2Proof.Machine.execTryDecode s
  | .isValid => Sys2Proof.Machine.execIsValid s

end Sys2Proof.Machine
end

