-- ==== Sys2Proof/Machine/HostPort.lean ====
section
/-! DEFINITION. The host's half of the block (30_encoding.md, sections 4 and 5; R26 of 10_state.md): what each host
action does, how the ports encode it, what one clock edge does, and how the pseudo-instructions of R57 run. -/

namespace Sys2Proof.Machine

/-! ## The ranges of R55: what the wires of R26 can carry -/

/-- Whether the ports of a block of this `LENW` can carry the action: the ranges of R55, the widths of R26. -/
def actionFits (lenw : Nat) : HostAction → Bool
  | .win i _ => decide (i < inDepth lenw)
  | .wlen n => decide (n < 2 ^ lenw)
  | .rout i => decide (i < outDepth lenw)
  | .wstatus v => decide (v < 2 ^ lenw)
  | .woutlen v => decide (v < 2 ^ lenw)
  | .start _ => true
  | .rstat => true
  | .rlen => true
  | .rcmd => true
  | .rinlen => true

/-- Whether the port values fit their wires (R26). -/
def portsFit (lenw : Nat) (p : Ports) : Bool :=
  decide (p.regWdata < 2 ^ lenw) && decide (p.inIdx < inDepth lenw) && decide (p.outIdx < outDepth lenw)

/-! ## Host actions -/

/-- A register read returned to the host (R54): nothing of the block changes (R35). -/
def returnReg (s : State) (sel : BitVec 2) : State :=
  { s with returned := .reg sel (regRead s sel) :: s.returned }

/-- The value of `out_data` for index `i`: the cell, or a free value where the cell holds none (R41, U7). -/
def outData (s : State) (i : Nat) : Byte :=
  match outRead s i with
  | some v => v
  | none => Config.freeByte s.draws

/-- A read of `OUT[i]` returned to the host: nothing of the block changes (R35). A free value is drawn anew at each
read of a cell that holds no value. -/
def returnCell (s : State) (i : Nat) : State :=
  { s with
    returned := .cell i (outData s i) :: s.returned
    draws := if (outRead s i).isSome then s.draws else s.draws + 1 }

/-- The effect of one host action (R55). `WIN`, `WLEN` and `START` are ignored while `BUSY = 1`, and a write to a
read-only register always (R130). -/
def hostAct (a : HostAction) (s : State) : State :=
  match a with
  | .win i v => if s.busy then s else { s with inBuf := memWrite s.inBuf i v }
  | .wlen n => if s.busy then s else { s with inlen := n }
  | .start op => startCommand s op
  | .rstat => returnReg s 2#2
  | .rlen => returnReg s 3#2
  | .rout i => returnCell s i
  | .rcmd => returnReg s 0#2
  | .rinlen => returnReg s 1#2
  | .wstatus _ => s
  | .woutlen _ => s

/-! ## Ports -/

/-- The port values of one host action (R54); ports not named are 0, and `rst_n` is 1. -/
def actionPorts (a : HostAction) : Ports :=
  let idle : Ports :=
    { rstN := true, regWe := false, regSel := 0#2, regWdata := 0, inWe := false, inIdx := 0, inData := 0#8,
      outIdx := 0 }
  match a with
  | .win i v => { idle with inWe := true, inIdx := i, inData := v }
  | .wlen n => { idle with regWe := true, regSel := 1#2, regWdata := n }
  | .start op => { idle with regWe := true, regSel := 0#2, regWdata := op.toNat }
  | .rstat => { idle with regSel := 2#2 }
  | .rlen => { idle with regSel := 3#2 }
  | .rout i => { idle with outIdx := i }
  | .rcmd => { idle with regSel := 0#2 }
  | .rinlen => { idle with regSel := 1#2 }
  | .wstatus v => { idle with regWe := true, regSel := 2#2, regWdata := v }
  | .woutlen v => { idle with regWe := true, regSel := 3#2, regWdata := v }

/-- The register read the port values encode (R54). -/
def regReadAction (sel : BitVec 2) : HostAction :=
  if sel = 0#2 then .rcmd else if sel = 1#2 then .rinlen else if sel = 2#2 then .rstat else .rlen

/-- The register write the port values encode (R54): a START uses only bits [1:0] of `reg_wdata` (R45). -/
def regWriteAction (sel : BitVec 2) (wdata : Nat) : HostAction :=
  if sel = 0#2 then .start (commandWord wdata)
  else if sel = 1#2 then .wlen wdata
  else if sel = 2#2 then .wstatus wdata
  else .woutlen wdata

/-- The reads of one edge: the register port when it does not write, and the `OUT` port, which always reads (R26). -/
def portReads (p : Ports) : List HostAction :=
  (if p.regWe then [] else [regReadAction p.regSel]) ++ [.rout p.outIdx]

/-- The writes of one edge, the `IN` write before the register write, so that it belongs to the operand of a START of
the same edge (R26). -/
def portWrites (p : Ports) : List HostAction :=
  (if p.inWe then [.win p.inIdx p.inData] else []) ++
  (if p.regWe then [regWriteAction p.regSel p.regWdata] else [])

/-- Actions one after the other. -/
def hostActs (as : List HostAction) (s : State) : State := as.foldl (fun s a => hostAct a s) s

/-- One rising edge of `clk` (R26, C11): reads, which see the state before the writes, then the `IN` write, then the
register write. With `rst_n = 0` the block is reset, the writes are ignored and reads return the reset values (R125). -/
def clockEdge (p : Ports) (s : State) : State :=
  if p.rstN then hostActs (portReads p ++ portWrites p) s
  else hostActs (portReads p) (resetBlock s)

/-! ## Host programs (R56, R57) -/

/-- The moves `WIN i, x0`, `WIN i+1, x1`, .... -/
def winMoves : Nat → List Byte → List HostMove
  | _, [] => []
  | i, x :: xs => .act (.win i x) :: winMoves (i + 1) xs

/-- `LOAD x0 x1 ...` (R57). -/
def loadMoves (xs : List Byte) : List HostMove := winMoves 0 xs ++ [.act (.wlen xs.length)]

/-- `RUN op` (R57). -/
def runMoves (i : Instr) : List HostMove := [.act (.start (encode i)), .wait]

/-- `ROUT 0` to `ROUT m-1`, the second part of `READ` (R57). -/
def routMoves (m : Nat) : List HostMove := (List.range m).map fun i => .act (.rout i)

/-- The source's four calls as host programs (R57). -/
def callMoves (i : Instr) (xs : List Byte) : List HostMove :=
  loadMoves xs ++ runMoves i ++
  match i with
  | .encode => [.read]
  | .decode => [.readUnlessErr]
  | .tryDecode => [.act .rstat, .read]
  | .isValid => [.act .rstat]

/-- What `COPYBACK` does next (R57): another `ROUT` while values are missing, else the `LOAD` of what was read. -/
def copyNext (m : Nat) (ys : List Byte) : List HostMove :=
  if ys.length < m then [.copyOut m ys] else loadMoves ys

/-- Moves put before the host's remaining ones. -/
def pushMoves (ms : List HostMove) (s : State) : State := { s with pending := ms ++ s.pending }

/-- An action the host makes, if the ports can carry it. -/
def hostActChecked (a : HostAction) (s : State) : Host.Outcome State Fault Refusal :=
  if actionFits s.lenw a then .next (hostAct a s) else .fault .portTooNarrow

/-- One move of the host, taken off its program already. -/
def hostMove (m : HostMove) (s : State) : Host.Outcome State Fault Refusal :=
  match m with
  | .act a => hostActChecked a s
  | .edge p => if portsFit s.lenw p then .next (clockEdge p s) else .fault .portTooNarrow
  | .reset => .next (resetBlock s)
  | .wait => .next (hostAct .rstat (if s.done then s else pushMoves [.wait] s))
  | .read => .next (hostAct .rlen (pushMoves (routMoves s.outlen) s))
  | .readUnlessErr => .next (hostAct .rstat (if s.err then s else pushMoves [.read] s))
  | .copyback => .next (hostAct .rlen (pushMoves (copyNext s.outlen []) s))
  | .copyOut m ys => hostActChecked (.rout ys.length) (pushMoves (copyNext m (ys ++ [outData s ys.length])) s)

/-- The host's turn: its next move, and nothing when it has none (R122: with `BUSY = 0` the block holds its state). -/
def hostTurn (s : State) : Host.Outcome State Fault Refusal :=
  match s.pending with
  | [] => .next s
  | m :: ms => hostMove m { s with pending := ms }

end Sys2Proof.Machine
end

