-- ==== Sys2Proof/Machine/Step.lean ====
section
/-! DEFINITION. One step of the machine: one move of one of its two agents (R8, R37). The host moves when no command
runs; while one runs (`BUSY = 1`) the schedule says which agent moves, and the engine's one move is the completion
step of the command in `CMD` (R21). -/

namespace Sys2Proof.Machine

/-- Which agent moves next. -/
def engineMoves (s : State) : Bool := s.busy && !(s.schedule.headD false)

/-- One entry of the schedule used. -/
def advance (s : State) : State := { s with schedule := s.schedule.tail }

/-- The completion step is enabled exactly when `BUSY = 1` (R21); the schedule is consulted, and used up entry by
entry, only then. -/
def step (s : State) : Host.Outcome State Fault Refusal :=
  if s.busy then
    if engineMoves s then exec (decodeCommand s.cmd) (advance s) else hostTurn (advance s)
  else hostTurn s

/-- The command word `w` handed to the block as START hands it (R20), with the completion step scheduled as the very
next move: what stands here for placing a word where the machine fetches. Log entry 5. -/
def State.withFetchWord (s : State) (nbits w : Nat) : State :=
  { s with
    cmd := commandWord (w % 2 ^ nbits)
    status := statusRunning
    out := []
    outlen := 0
    schedule := false :: s.schedule }

end Sys2Proof.Machine
end

