-- ==== Sys2Proof/Safety.lean ====
section
/-! DEFINITION. What counts as a good state of the block, in the terms the statements use: the operand is there (R132),
the registers are within their widths (R14, R15, R19), the flags stand in the relations of R18, and the buffers have
their form. -/

namespace Sys2Proof.Machine

/-- `X` is the operand the block holds: `INLEN` cells of `IN`, each one written (R12, R132). -/
def State.HoldsOperand (s : State) (X : List Byte) : Prop :=
  X.length = s.inlen ∧ ∀ i, i < s.inlen → memRead s.inBuf i = X[i]?

/-- Every operand cell has been written since reset: what R132 asks of the host before a START. -/
def State.OperandWritten (s : State) : Prop :=
  ∀ i, i < s.inlen → (memRead s.inBuf i).isSome

/-- The largest value of `OUTLEN`, `4 * ceil((2^LENW - 1) / 3)` (R15). -/
def maxOutlen (lenw : Nat) : Nat := 4 * ((2 ^ lenw - 1 + 2) / 3)

/-- The relations of the flags (R18). -/
structure State.FlagRules (s : State) : Prop where
  notBoth : ¬(s.busy = true ∧ s.done = true)
  errMeans : s.err = true →
    s.done = true ∧ s.ok = false ∧ s.outlen = 0 ∧ decodeCommand s.cmd = .decode
  okMeans : s.ok = true → s.done = true
  busyMeans : s.busy = true → s.done = false ∧ s.ok = false ∧ s.err = false ∧ s.outlen = 0

/-- The form of the state: what every state a run reaches satisfies. -/
structure State.Inv (s : State) : Prop where
  /-- `LENW >= 2` (R5). -/
  lenwLarge : 2 ≤ s.lenw
  /-- `IN` is in canonical form. -/
  inCanonical : Memory.wf s.inBuf = true
  /-- `IN` has no cell above its depth (R12). -/
  inWithin : ∀ c ∈ s.inBuf, c.1 < inDepth s.lenw
  /-- `INLEN` has `LENW` bits (R14). -/
  inlenWithin : s.inlen < 2 ^ s.lenw
  /-- `OUT` is a sequence of exactly `OUTLEN` cells (R13). -/
  outSequence : s.out.length = s.outlen
  /-- `OUTLEN` is a legal value (R19), and so within `LENW + 1` bits. -/
  outlenLegal : s.outlen ≤ maxOutlen s.lenw
  /-- R18. -/
  flags : s.FlagRules

/-- The states a run reaches: from reset, with any host program, any interleaving and any free values still to draw, by
steps. -/
inductive Reachable : State → Prop where
  | reset (lenw : Nat) (large : 2 ≤ lenw) (schedule : List Bool) (pending : List HostMove) (draws : Nat) :
      Reachable { State.resetOf lenw with schedule := schedule, pending := pending, draws := draws }
  | step {s t : State} (before : Reachable s) (moved : step s = .next t) : Reachable t

/-- A host program has ended (R135): its last action has been taken and no command runs. -/
def State.ended (s : State) : Bool := s.pending.isEmpty && !s.busy

/-- A move that carries a `START op` (R54, R55): the action, or an edge that writes it to register 0. -/
def StartMove (op : BitVec 2) (m : HostMove) : Prop :=
  m = .act (.start op) ∨
  ∃ p, m = .edge p ∧ p.rstN = true ∧ p.regWe = true ∧ p.regSel = 0#2 ∧ commandWord p.regWdata = op

/-- A move that resets the block (R125): `rst_n = 0` at an edge. -/
def ResetMove (m : HostMove) : Prop := m = .reset ∨ ∃ p, m = .edge p ∧ p.rstN = false

/-- A move that is one action within the ports' range or a `WAIT`: what a host makes that only acts on a running
command's block. -/
def plainMove (lenw : Nat) : HostMove → Bool
  | .act a => actionFits lenw a
  | .wait => true
  | .edge _ => false
  | .reset => false
  | .read => false
  | .readUnlessErr => false
  | .copyback => false
  | .copyOut _ _ => false

/-- What a completed command of operand `X` leaves in `OUT` (R21). -/
def resultOf (i : Instr) (X : List Byte) : List Byte :=
  match i with
  | .encode => encodeMsg X
  | .decode => if isValidText X then decodeRaw X else []
  | .tryDecode => if isValidText X then decodeRaw X else []
  | .isValid => []

/-- The flag `OK` a completed command of operand `X` leaves (R21). -/
def okOf (i : Instr) (X : List Byte) : Bool :=
  match i with
  | .encode => true
  | .decode => isValidText X
  | .tryDecode => isValidText X
  | .isValid => isValidText X

/-- The flag `ERR` a completed command of operand `X` leaves (R21, R112): only DECODE raises. -/
def errOf (i : Instr) (X : List Byte) : Bool :=
  match i with
  | .encode => false
  | .decode => !isValidText X
  | .tryDecode => false
  | .isValid => false

/-- The block's own fields: what the host's reads may not change (R35) and a reset sets (R25). -/
def State.SameBlock (s t : State) : Prop :=
  t.lenw = s.lenw ∧ t.inBuf = s.inBuf ∧ t.inlen = s.inlen ∧ t.out = s.out ∧ t.outlen = s.outlen ∧
  t.cmd = s.cmd ∧ t.status = s.status

/-- The host's side and the model's counters: what a command may not change. -/
def State.SameHost (s t : State) : Prop :=
  t.lenw = s.lenw ∧ t.schedule = s.schedule ∧ t.pending = s.pending ∧ t.returned = s.returned ∧ t.draws = s.draws

end Sys2Proof.Machine
end

