-- ==== Sys2Proof/Certificates/Slice0/Obligations.lean ====
section
/-! DEFINITION. The statements for the provers. Each docstring names the rule of spec/ it formalises, or says what of
the model it rests on. -/

open Sys2Proof Sys2Proof.Machine

/-! ## Command words and the step -/

/-- R46, the opcode map, on the four words as the opcode table numbers them. -/
def Obligations.CommandWordsDecode : Prop :=
  decodeTableWord 8 0b00 = some .encode ∧ decodeTableWord 8 0b01 = some .decode ∧
  decodeTableWord 8 0b10 = some .tryDecode ∧ decodeTableWord 8 0b11 = some .isValid

/-- R48 and R45: the decoder never refuses, each word has one command and each command one word, and the bits above
`OP` are ignored. -/
def Obligations.DecoderIsTotalAndInvertsEncoder : Prop :=
  (∀ nbits w, (decodeTableWord nbits w).isSome = true) ∧
  (∀ i : Instr, i.wellFormed = true ∧ decodeCommand (encode i) = i) ∧
  (∀ op : BitVec 2, encode (decodeCommand op) = op) ∧
  (∀ nbits w, 2 ≤ nbits → decodeTableWord nbits w = decodeTableWord 2 (w % 4))

/-- A step runs the decoded command: while `BUSY = 1`, where the schedule does not give the host the move, the step is
`exec` of the command in `CMD`, one entry of the schedule used. Rests on log entry 2 for the schedule. -/
def Obligations.StepRunsDecodedCommand : Prop :=
  ∀ s : State, s.busy = true → s.schedule.head? ≠ some true →
    step s = exec (decodeCommand s.cmd) { s with schedule := s.schedule.tail }

/-- The command word placed by `withFetchWord` runs at the very next step, on the state START leaves (R20). Rests on
log entry 5. -/
def Obligations.FetchedWordRunsNext : Prop :=
  ∀ (s : State) (nbits w : Nat) (i : Instr), decodeTableWord nbits w = some i →
    step (s.withFetchWord nbits w) =
      exec i { s with cmd := BitVec.ofNat 2 (w % 2 ^ nbits), status := 0b0001#4, out := [], outlen := 0 }

/-! ## The four commands -/

/-- R75, ENCODE, `OP` = 00: for every operand it completes, publishing `Encode(B)` with `OK = 1` and `ERR = 0`; nothing
else of the state changes. -/
def Obligations.EncodeCompletes : Prop :=
  decodeCommand 0b00#2 = .encode ∧ ∀ (s : State) (B : List Byte), s.HoldsOperand B →
    (encodeMsg B).length = 4 * ((B.length + 2) / 3) ∧
    exec .encode s =
      .next { s with out := encodeMsg B, outlen := 4 * ((B.length + 2) / 3), status := 0b0110#4 }

/-- R89, DECODE, `OP` = 01: a valid text is decoded with `OK = 1`, at least one byte; an invalid one raises
`InvalidEncoding`: `OUTLEN = 0`, `OK = 0`, `ERR = 1`, no partial result. Nothing else of the state changes. -/
def Obligations.DecodeCompletesOrRaises : Prop :=
  decodeCommand 0b01#2 = .decode ∧ ∀ (s : State) (T : List Byte), s.HoldsOperand T →
    (isValidText T = true →
      1 ≤ (decodeRaw T).length ∧
      exec .decode s = .next { s with out := decodeRaw T, outlen := (decodeRaw T).length, status := 0b0110#4 }) ∧
    (isValidText T = false →
      exec .decode s = .next { s with out := [], outlen := 0, status := 0b1010#4 })

/-- R90, TRYDECODE, `OP` = 10: as DECODE, but an invalid text is the answer `OK = 0` with `ERR = 0`; it leaves what
DECODE leaves but for `ERR`, and `OK = 1` exactly when there is a byte. -/
def Obligations.TryDecodeCompletes : Prop :=
  decodeCommand 0b10#2 = .tryDecode ∧ ∀ (s : State) (T : List Byte), s.HoldsOperand T →
    (isValidText T = true →
      exec .tryDecode s = .next { s with out := decodeRaw T, outlen := (decodeRaw T).length, status := 0b0110#4 }) ∧
    (isValidText T = false →
      exec .tryDecode s = .next { s with out := [], outlen := 0, status := 0b0010#4 }) ∧
    ∃ t d, exec .tryDecode s = .next t ∧ exec .decode s = .next d ∧
      d.out = t.out ∧ d.outlen = t.outlen ∧ d.ok = t.ok ∧ t.err = false ∧ d.err = !t.ok ∧
      (t.ok = true ↔ 1 ≤ t.outlen)

/-- R104, ISVALID, `OP` = 11: it completes for every operand, `OK` the answer, `ERR = 0`, `OUTLEN = 0`; its `OK` is
that of DECODE and TRYDECODE on the same operand. -/
def Obligations.IsValidCompletes : Prop :=
  decodeCommand 0b11#2 = .isValid ∧ ∀ (s : State) (T : List Byte), s.HoldsOperand T →
    exec .isValid s =
      .next { s with out := [], outlen := 0, status := if isValidText T then 0b0110#4 else 0b0010#4 } ∧
    ∃ t d u, exec .isValid s = .next t ∧ exec .decode s = .next d ∧ exec .tryDecode s = .next u ∧
      t.ok = isValidText T ∧ d.ok = t.ok ∧ u.ok = t.ok

/-- R21, the completion step as the engine takes it: the command of `CMD`, on the operand as it stands, publishes the
row of R21's case table. The step uses an entry of the schedule (log entry 2). -/
def Obligations.CompletionStepPublishesCommandResult : Prop :=
  ∀ (s : State) (X : List Byte), s.busy = true → s.schedule.head? ≠ some true → s.HoldsOperand X →
    ∃ t, step s = .next t ∧
      t.out = resultOf (decodeCommand s.cmd) X ∧ t.outlen = t.out.length ∧
      t.ok = okOf (decodeCommand s.cmd) X ∧ t.err = errOf (decodeCommand s.cmd) X ∧
      t.done = true ∧ t.busy = false ∧
      t.inBuf = s.inBuf ∧ t.inlen = s.inlen ∧ t.cmd = s.cmd

/-- R110 and R112: `InvalidEncoding` is raised by DECODE alone, exactly on an invalid text, and nothing is recorded of
why: the flags and the output are the same whatever the text. -/
def Obligations.OnlyDecodeRaisesInvalidEncoding : Prop :=
  ∀ (i : Instr) (s : State) (T : List Byte), s.HoldsOperand T →
    ∃ t, exec i s = .next t ∧
      (t.err = true ↔ i = .decode ∧ isValidText T = false) ∧
      (t.err = true → t = { s with out := [], outlen := 0, status := 0b1010#4 })

/-- The frame of the four commands: `CMD`, `INLEN`, `LENW`, every cell of `IN` and the host's side are unchanged; `OUT`
holds the result in its first cells and no value in any other; the flags are the command's. -/
def Obligations.CommandsLeaveOperandUnchanged : Prop :=
  ∀ (i : Instr) (s t : State), exec i s = .next t →
    s.SameHost t ∧ t.cmd = s.cmd ∧ t.inlen = s.inlen ∧
    (∀ a, memRead t.inBuf a = memRead s.inBuf a) ∧
    ∃ X, s.HoldsOperand X ∧ (∀ a, outRead t a = (resultOf i X)[a]?) ∧
      t.status = BitVec.ofBool (errOf i X) ++ BitVec.ofBool (okOf i X) ++ 0b10#2

/-- R132: a command whose operand holds a cell never written since reset faults; any other completes, so a command with
`INLEN = 0` always does. -/
def Obligations.UnwrittenOperandFaults : Prop :=
  ∀ (i : Instr) (s : State),
    ((∃ k, k < s.inlen ∧ memRead s.inBuf k = none) → exec i s = .fault .unwrittenOperandCell) ∧
    ((∀ k, k < s.inlen → memRead s.inBuf k ≠ none) → ∃ t, exec i s = .next t) ∧
    (s.inlen = 0 → ∃ t, exec i s = .next t)

/-- R22: what a command publishes depends on the command, `INLEN` and the operand cells alone. -/
def Obligations.ResultDependsOnOperandOnly : Prop :=
  ∀ (i : Instr) (s s' : State), s'.inlen = s.inlen →
    (∀ k, k < s.inlen → memRead s'.inBuf k = memRead s.inBuf k) →
    (∀ r, exec i s = .fault r ↔ exec i s' = .fault r) ∧
    ∀ t, exec i s = .next t →
      ∃ t', exec i s' = .next t' ∧ t'.out = t.out ∧ t'.outlen = t.outlen ∧ t'.status = t.status

/-! ## The host's actions -/

/-- R20, START: with `BUSY = 0` it latches the command, clears the flags and the old result, sets `BUSY`, and changes
nothing else; with `BUSY = 1` nothing happens. -/
def Obligations.StartLatchesCommand : Prop :=
  ∀ (s : State) (op : BitVec 2),
    (s.busy = false →
      hostAct (.start op) s = { s with cmd := op, status := 0b0001#4, out := [], outlen := 0 }) ∧
    (s.busy = true → hostAct (.start op) s = s)

/-- R55 for the two buffer and length writes, made as the host's next move with `BUSY = 0`: `WIN` changes the one cell it
names, `WLEN` the register `INLEN`, and nothing else of the state but the move itself being done. -/
def Obligations.HostWritesTakeEffectWhenIdle : Prop :=
  (∀ (s : State) (i : Nat) (v : Byte) (ms : List HostMove),
    s.busy = false → i < 2 ^ s.lenw → s.pending = .act (.win i v) :: ms →
    ∃ m, step s = .next { s with inBuf := m, pending := ms } ∧
      ∀ a, memRead m a = if a = i then some v else memRead s.inBuf a) ∧
  (∀ (s : State) (n : Nat) (ms : List HostMove),
    s.busy = false → n < 2 ^ s.lenw → s.pending = .act (.wlen n) :: ms →
    step s = .next { s with inlen := n, pending := ms })

/-- R130: `WIN`, `WLEN` and `START` while `BUSY = 1` change no state, and writes to `STATUS` and `OUTLEN` never do. -/
def Obligations.WritesWhileBusyIgnored : Prop :=
  (∀ (s : State) (i : Nat) (v : Byte) (n : Nat) (op : BitVec 2), s.busy = true →
    hostAct (.win i v) s = s ∧ hostAct (.wlen n) s = s ∧ hostAct (.start op) s = s) ∧
  (∀ (s : State) (v : Nat), hostAct (.wstatus v) s = s ∧ hostAct (.woutlen v) s = s)

/-- R131: while a command runs `RSTAT` returns `BUSY` alone, `RLEN` 0, no index of `OUT` holds a value, and `CMD` and
`INLEN` read as they are. The premise is the model's invariant, stated by `StepKeepsInvariant`. -/
def Obligations.ReadsWhileBusy : Prop :=
  ∀ s : State, s.Inv → s.busy = true →
    (hostAct .rstat s).returned = .reg 2#2 0b0001 :: s.returned ∧
    (hostAct .rlen s).returned = .reg 3#2 0 :: s.returned ∧
    (∀ i, outRead s i = none) ∧
    (hostAct .rcmd s).returned = .reg 0#2 s.cmd.toNat :: s.returned ∧
    (hostAct .rinlen s).returned = .reg 1#2 s.inlen :: s.returned

/-- R35, the reads: none changes the block, and two with no step between them return the same value (for `OUT`, where
the cell holds one; log entry 3 for the others). -/
def Obligations.ReadsHaveNoSideEffect : Prop :=
  ∀ (s : State) (i : Nat),
    s.SameBlock (hostAct .rstat s) ∧ s.SameBlock (hostAct .rlen s) ∧ s.SameBlock (hostAct (.rout i) s) ∧
    s.SameBlock (hostAct .rcmd s) ∧ s.SameBlock (hostAct .rinlen s) ∧
    (∀ v, outRead s i = some v →
      (hostAct (.rout i) (hostAct (.rout i) s)).returned = .cell i v :: .cell i v :: s.returned) ∧
    (∀ sel, regRead (returnReg s sel) sel = regRead s sel)

/-- R54: the port values of a host action fit the ports of every block with `LENW >= 2`, and the edge they make carries
that action and, beside it, at most the reads of `CMD` and of `OUT[0]` that idle ports amount to. -/
def Obligations.ActionPortsCarryAction : Prop :=
  ∀ (lenw : Nat) (a : HostAction), 2 ≤ lenw → actionFits lenw a = true →
    portsFit lenw (actionPorts a) = true ∧ (actionPorts a).rstN = true ∧
    a ∈ portReads (actionPorts a) ++ portWrites (actionPorts a) ∧
    ∀ b ∈ portReads (actionPorts a) ++ portWrites (actionPorts a), b = a ∨ b = .rcmd ∨ b = .rout 0

/-- R26: at one edge the reads return the state before the edge's writes, and the `IN` write comes before the register
write, so that it is part of the operand of a START of the same edge. -/
def Obligations.EdgeOrdersReadsThenWinThenStart : Prop :=
  ∀ (s : State) (p : Ports), p.rstN = true →
    (clockEdge p s).returned = (hostActs (portReads p) s).returned ∧
    s.SameBlock (hostActs (portReads p) s) ∧
    (p.inWe = true → p.regWe = true → p.regSel = 0#2 → s.busy = false →
      (clockEdge p s).inBuf = memWrite s.inBuf p.inIdx p.inData ∧
      (clockEdge p s).cmd = BitVec.ofNat 2 p.regWdata ∧ (clockEdge p s).busy = true)

/-- The pseudo-instructions of R57 that depend on what is read, made as the host's next move, with no command running
or on a host turn while one runs: `WAIT` is an `RSTAT` that is made again until `DONE = 1`; `READ` is `RLEN` giving `m`
and then `ROUT 0` to `ROUT m-1`. That they are made move by move is the model's, log entry 13, and so is the host turn,
log entry 2. That the `RSTAT` returns all four flags for `LENW = 2` too is the model's choice, log entry 10. -/
def Obligations.WaitAndReadExpand : Prop :=
  ∀ (s : State) (ms : List HostMove), s.busy = false ∨ s.schedule.head? = some true →
    (s.pending = .wait :: ms →
      step s = .next { s with
        schedule := if s.busy then s.schedule.tail else s.schedule
        returned := .reg 2#2 s.status.toNat :: s.returned
        pending := if s.done then ms else .wait :: ms }) ∧
    (s.pending = .read :: ms →
      step s = .next { s with
        schedule := if s.busy then s.schedule.tail else s.schedule
        returned := .reg 3#2 s.outlen :: s.returned
        pending := (List.range s.outlen).map (fun i => .act (.rout i)) ++ ms })

/-- R135 and R122: a program has ended when no move is left and no command runs, and then the block holds its state. -/
def Obligations.EndedProgramHoldsState : Prop :=
  ∀ s : State, (s.ended = true ↔ s.pending = [] ∧ s.busy = false) ∧ (s.ended = true → step s = .next s)

/-! ## Reset -/

/-- R25: the values after reset, for a block of every `LENW`, and for the state the model starts from. -/
def Obligations.ResetStateValues : Prop :=
  ∀ s : State, (s = State.reset ∨ ∃ lenw, s = State.resetOf lenw) →
    (∀ i, memRead s.inBuf i = none) ∧ s.inlen = 0 ∧ s.out = [] ∧ s.outlen = 0 ∧ s.cmd = 0#2 ∧
    s.busy = false ∧ s.done = false ∧ s.ok = false ∧ s.err = false

/-- R125 and R126: an edge with `rst_n = 0`, in any state, also while a command runs, leaves the reset values; the
writes of that edge are ignored and its register read returns the reset value. -/
def Obligations.ResetEdgeReachesResetValues : Prop :=
  ∀ (s : State) (p : Ports), p.rstN = false →
    (State.resetOf s.lenw).SameBlock (clockEdge p s) ∧
    (p.regWe = false →
      (clockEdge p s).returned.tail = .reg p.regSel (regRead (State.resetOf s.lenw) p.regSel) :: s.returned) ∧
    (hostMove .reset s = .next (resetBlock s) ∧ (State.resetOf s.lenw).SameBlock (resetBlock s))

/-! ## The look-up units -/

/-- R60 and R61, the alphabet table in its closed form. -/
def Obligations.AlphabetClosedForm : Prop :=
  ∀ s : Sym,
    (s.toNat ≤ 25 → alut s = BitVec.ofNat 8 (0x41 + s.toNat)) ∧
    (26 ≤ s.toNat → s.toNat ≤ 51 → alut s = BitVec.ofNat 8 (0x61 + (s.toNat - 26))) ∧
    (52 ≤ s.toNat → s.toNat ≤ 61 → alut s = BitVec.ofNat 8 (0x30 + (s.toNat - 52))) ∧
    (s.toNat = 62 → alut s = 0x2B#8) ∧ (s.toNat = 63 → alut s = 0x2F#8)

/-- R62: `PAD` is 0x3D, the 64 entries are distinct, none of them is `PAD`, each is a printable character, and neither
they nor `PAD` are in `WS`. -/
def Obligations.AlphabetInvariants : Prop :=
  padCode = 0x3D#8 ∧
  (∀ j k : Sym, alut j = alut k → j = k) ∧ (∀ k : Sym, alut k ≠ padCode) ∧
  (∀ k : Sym, 0x21 ≤ (alut k).toNat ∧ (alut k).toNat ≤ 0x7E) ∧
  (∀ k : Sym, alut k ∉ Config.whitespace) ∧ padCode ∉ Config.whitespace

/-- R63: the reverse look-up finds the one index that maps to the character, gives (0, 0) for every other character,
`PAD` among them, and has R63's closed form; R65: the reverse ROM holds it, entry by entry. -/
def Obligations.ReverseLookupInvertsAlphabet : Prop :=
  (∀ k : Sym, rlut (alut k) = (true, k)) ∧
  (∀ c : Byte, (∀ k : Sym, alut k ≠ c) → rlut c = (false, 0#6)) ∧
  rlut padCode = (false, 0#6) ∧
  (∀ c : Byte, rlut c =
    if 0x41 ≤ c.toNat ∧ c.toNat ≤ 0x5A then (true, BitVec.ofNat 6 (c.toNat - 0x41))
    else if 0x61 ≤ c.toNat ∧ c.toNat ≤ 0x7A then (true, BitVec.ofNat 6 (c.toNat - 0x61 + 26))
    else if 0x30 ≤ c.toNat ∧ c.toNat ≤ 0x39 then (true, BitVec.ofNat 6 (c.toNat - 0x30 + 52))
    else if c.toNat = 0x2B then (true, 62#6)
    else if c.toNat = 0x2F then (true, 63#6)
    else (false, 0#6)) ∧
  reverseRom.length = 256 ∧
  (∀ c : Byte, reverseRom[c.toNat]? = some (rlut c))

/-- R53: 64 codes are symbols, one is the padding, 191 are neither, with R53's ranges. -/
def Obligations.CharacterClasses : Prop :=
  (∀ c : Byte, charClass c = .symbol ↔ ∃ k : Sym, alut k = c ∧ rlut c = (true, k)) ∧
  (∀ c : Byte, charClass c = .padding ↔ c = 0x3D#8) ∧
  (∀ c : Byte, charClass c = .other ↔
    (c.toNat ≤ 0x2A ∨ (0x2C ≤ c.toNat ∧ c.toNat ≤ 0x2E) ∨ (0x3A ≤ c.toNat ∧ c.toNat ≤ 0x3C) ∨
      (0x3E ≤ c.toNat ∧ c.toNat ≤ 0x40) ∨ (0x5B ≤ c.toNat ∧ c.toNat ≤ 0x60) ∨ 0x7B ≤ c.toNat)) ∧
  (∀ c : Byte, charClass c ≠ .symbol → rlut c = (false, 0#6)) ∧
  ((List.range 256).countP fun c => charClass (BitVec.ofNat 8 c) == .symbol) = 64 ∧
  ((List.range 256).countP fun c => charClass (BitVec.ofNat 8 c) == .padding) = 1 ∧
  ((List.range 256).countP fun c => charClass (BitVec.ofNat 8 c) == .other) = 191

/-! ## The encoder and the decoder -/

/-- R49: the four symbols are the four 6-bit slices of `W = b0 ‖ b1 ‖ b2` from the top, made of the bytes' bits as R49's
table says; a short group has zero bits for the absent bytes and `PAD` for the symbols that would hold only those. R73:
the characters of a group are the alphabet's for those symbols, in the symbols' order. -/
def Obligations.SymbolsAreSlicesOfGroup : Prop :=
  ∀ b0 b1 b2 : Byte,
    symx b0 b1 b2 .three =
      ((b0 ++ b1 ++ b2).extractLsb' 18 6, (b0 ++ b1 ++ b2).extractLsb' 12 6,
        (b0 ++ b1 ++ b2).extractLsb' 6 6, (b0 ++ b1 ++ b2).extractLsb' 0 6) ∧
    symx b0 b1 b2 .three =
      (b0.extractLsb' 2 6, b0.extractLsb' 0 2 ++ b1.extractLsb' 4 4,
        b1.extractLsb' 0 4 ++ b2.extractLsb' 6 2, b2.extractLsb' 0 6) ∧
    encGroup b0 b1 b2 .three =
      [alut ((b0 ++ b1 ++ b2).extractLsb' 18 6), alut ((b0 ++ b1 ++ b2).extractLsb' 12 6),
        alut ((b0 ++ b1 ++ b2).extractLsb' 6 6), alut ((b0 ++ b1 ++ b2).extractLsb' 0 6)] ∧
    encGroup b0 b1 b2 .two =
      [alut (b0.extractLsb' 2 6), alut (b0.extractLsb' 0 2 ++ b1.extractLsb' 4 4),
        alut (b1.extractLsb' 0 4 ++ 0b00#2), padCode] ∧
    encGroup b0 b1 b2 .one =
      [alut (b0.extractLsb' 2 6), alut (b0.extractLsb' 0 2 ++ 0b0000#4), padCode, padCode]

/-- R50: the bytes are the three 8-bit slices of `W = i0 ‖ i1 ‖ i2 ‖ i3`, made of the indices' bits as R50's table says
and emitted for the counts it says; the bits of the last index below the last byte are dropped. R86: a group of
characters gives the bytes of the indices its characters look up, in the characters' order. -/
def Obligations.BytesAreSlicesOfGroup : Prop :=
  (∀ (c0 c1 c2 c3 : Byte) (r : CharsPresent),
    decGroup c0 c1 c2 c3 r = rcmb (rlut c0).2 (rlut c1).2 (rlut c2).2 (rlut c3).2 r) ∧
  ∀ i0 i1 i2 i3 : Sym,
    rcmb i0 i1 i2 i3 .four =
      [(i0 ++ i1 ++ i2 ++ i3).extractLsb' 16 8, (i0 ++ i1 ++ i2 ++ i3).extractLsb' 8 8,
        (i0 ++ i1 ++ i2 ++ i3).extractLsb' 0 8] ∧
    rcmb i0 i1 i2 i3 .four =
      [i0 ++ i1.extractLsb' 4 2, i1.extractLsb' 0 4 ++ i2.extractLsb' 2 4, i2.extractLsb' 0 2 ++ i3] ∧
    rcmb i0 i1 i2 i3 .three = [i0 ++ i1.extractLsb' 4 2, i1.extractLsb' 0 4 ++ i2.extractLsb' 2 4] ∧
    rcmb i0 i1 i2 i3 .two = [i0 ++ i1.extractLsb' 4 2] ∧
    rcmb i0 i1 i2 i3 .one = [i0 ++ 0b00#2]

/-- R74: `Encode(B)` is the loop over the group index `g` that R74 writes out. -/
def Obligations.EncodeFollowsGroupLoop : Prop :=
  ∀ B : List Byte,
    encodeMsg B =
      (List.range ((B.length + 2) / 3)).flatMap fun g =>
        encGroup (B.getD (3 * g) 0#8) (B.getD (3 * g + 1) 0#8) (B.getD (3 * g + 2) 0#8)
          (bytesLeft (min 3 (B.length - 3 * g)))

/-- R87: `DecodeRaw(T)` is the loop over the group index `g` of the effective-length part that R87 writes out. -/
def Obligations.DecodeFollowsGroupLoop : Prop :=
  ∀ T : List Byte,
    decodeRaw T =
      (List.range ((effLen T + 3) / 4)).flatMap fun g =>
        decGroup (T.getD (4 * g) 0#8) (T.getD (4 * g + 1) 0#8) (T.getD (4 * g + 2) 0#8) (T.getD (4 * g + 3) 0#8)
          (charsLeft (min 4 (effLen T - 4 * g)))

/-- R76: the length of an encoded message, and that it fits `OUTLEN` and `OUT` for every `LENW >= 2`. -/
def Obligations.EncodedLength : Prop :=
  ∀ B : List Byte,
    (encodeMsg B).length = 4 * ((B.length + 2) / 3) ∧ (encodeMsg B).length % 4 = 0 ∧ encodeMsg [] = [] ∧
    ∀ lenw, 2 ≤ lenw → B.length < 2 ^ lenw → (encodeMsg B).length < 2 ^ (lenw + 1)

/-- R77: `Encode(B)` is alphabet characters followed by `(3 - (n mod 3)) mod 3` paddings. -/
def Obligations.EncodedPadding : Prop :=
  ∀ B : List Byte, ∃ A : List Byte,
    encodeMsg B = A ++ List.replicate ((3 - B.length % 3) % 3) padCode ∧ ∀ c ∈ A, inAlphabet c = true

/-- R88: the length of a decoded text. -/
def Obligations.DecodedLength : Prop :=
  ∀ T : List Byte,
    (decodeRaw T).length =
      3 * (effLen T / 4) +
        (if effLen T % 4 = 0 then 0 else if effLen T % 4 = 1 then 1 else if effLen T % 4 = 2 then 1 else 2) ∧
    (decodeRaw T).length ≤ T.length ∧ (1 ≤ effLen T → 1 ≤ (decodeRaw T).length)

/-- R100: the effective length leaves off at most two characters, all of them `PAD`, and leaves off fewer than two only
where the next one is not `PAD`. -/
def Obligations.EffectiveLengthStripsPadding : Prop :=
  ∀ T : List Byte,
    effLen T ≤ T.length ∧ T.length ≤ effLen T + 2 ∧
    T = T.take (effLen T) ++ List.replicate (T.length - effLen T) padCode ∧
    (T.length < effLen T + 2 → ∀ c, (T.take (effLen T)).getLast? = some c → c ≠ padCode)

/-- R101: a text is valid exactly when it is one or more alphabet characters followed by zero, one or two `PAD`; in
particular the empty text and every text that starts with `PAD` are not. -/
def Obligations.ValidityCharacterised : Prop :=
  (∀ T : List Byte, isValidText T = true ↔
    ∃ (A : List Byte) (k : Nat), A ≠ [] ∧ (∀ c ∈ A, inAlphabet c = true) ∧ k ≤ 2 ∧
      T = A ++ List.replicate k padCode) ∧
  isValidText [] = false ∧ ∀ T : List Byte, isValidText (padCode :: T) = false

/-- R102: a valid text has an effective length of at least 1 and decodes to at least one byte; the first-character test
changes the answer for exactly the two texts "=" and "==". -/
def Obligations.FirstCharacterTestDecidesTwoTexts : Prop :=
  (∀ T : List Byte, isValidText T = true → 1 ≤ effLen T ∧ 1 ≤ (decodeRaw T).length) ∧
  ∀ T : List Byte, T ≠ [] →
    (isValidText T ≠ (T.take (effLen T)).all inAlphabet ↔ T = [padCode] ∨ T = [padCode, padCode])

/-- R103: the empty text is rejected, and so is every text with a whitespace character in its effective-length part,
whatever set without alphabet characters and `PAD` is called whitespace; a whitespace-only text is such a text, and one
that ends in whitespace. -/
def Obligations.WhitespaceRejected : Prop :=
  isValidText [] = false ∧
  ∀ W : List Byte, (∀ c ∈ W, inAlphabet c = false ∧ c ≠ padCode) →
    (∀ T : List Byte, T ≠ [] → (∀ c ∈ T, c ∈ W) → effLen T = T.length ∧ isValidText T = false) ∧
    (∀ T : List Byte, (∃ c ∈ T.take (effLen T), c ∈ W) → isValidText T = false) ∧
    (∀ (T : List Byte) (c : Byte), c ∈ W → effLen (T ++ [c]) = T.length + 1 ∧ isValidText (T ++ [c]) = false)

/-- R92: nothing of canonical form is checked. The count of trailing `PAD` is not compared with anything, and the bits
of the last index that a short group drops may be anything. -/
def Obligations.NoCanonicalFormCheck : Prop :=
  (∀ (A : List Byte) (k : Nat), A ≠ [] → (∀ c ∈ A, inAlphabet c = true) → k ≤ 2 →
    isValidText (A ++ List.replicate k padCode) = true ∧
    decodeRaw (A ++ List.replicate k padCode) = decodeRaw A) ∧
  (∀ (A : List Byte) (c0 c1 c1' : Byte), A.length % 4 = 0 → inAlphabet c1 = true → inAlphabet c1' = true →
    (rlut c1).2.extractLsb' 4 2 = (rlut c1').2.extractLsb' 4 2 →
    decodeRaw (A ++ [c0, c1]) = decodeRaw (A ++ [c0, c1'])) ∧
  (∀ (A : List Byte) (c0 c1 c2 c2' : Byte), A.length % 4 = 0 → inAlphabet c2 = true → inAlphabet c2' = true →
    (rlut c2).2.extractLsb' 2 4 = (rlut c2').2.extractLsb' 2 4 →
    decodeRaw (A ++ [c0, c1, c2]) = decodeRaw (A ++ [c0, c1, c2']))

/-- R91: in a text that DECODE or TRYDECODE decodes, every look-up hits; a character that is absent from the alphabet,
which no command looks up, counts as index 0. -/
def Obligations.ValidTextLookupsHit : Prop :=
  (∀ T : List Byte, isValidText T = true → ∀ c ∈ T.take (effLen T), ∃ k : Sym, rlut c = (true, k) ∧ alut k = c) ∧
  ∀ c : Byte, inAlphabet c = false → (rlut c).2 = 0#6

/-- R79: `DecodeRaw` inverts `Encode` on every byte sequence, so `Encode` is injective, and every encoded message but
the empty one is valid. -/
def Obligations.DecodeInvertsEncode : Prop :=
  (∀ B : List Byte, decodeRaw (encodeMsg B) = B) ∧
  (∀ B : List Byte, B ≠ [] → isValidText (encodeMsg B) = true) ∧
  (∀ B B' : List Byte, encodeMsg B = encodeMsg B' → B = B')

/-- R93 at the block: ENCODE completes, and DECODE of what it left in `OUT`, held as an operand by any block, returns
the bytes with `OK`; for the empty message it raises `InvalidEncoding` instead. -/
def Obligations.BlockRoundTrip : Prop :=
  ∀ (s : State) (B : List Byte), s.HoldsOperand B →
    ∃ t, exec .encode s = .next t ∧
      ∀ u : State, u.HoldsOperand t.out →
        ∃ v, exec .decode u = .next v ∧
          (B ≠ [] → v.out = B ∧ v.outlen = B.length ∧ v.status = 0b0110#4) ∧
          (B = [] → v.out = [] ∧ v.outlen = 0 ∧ v.status = 0b1010#4)

/-! ## Invariants and rules of the whole machine -/

/-- Every step keeps the invariant of Safety.lean: widths, canonical buffers, `OUT` a sequence of `OUTLEN` cells, a
legal `OUTLEN`, and R18's flags; and no step changes `LENW`. -/
def Obligations.StepKeepsInvariant : Prop :=
  ∀ s t : State, s.Inv → step s = .next t → t.Inv ∧ t.lenw = s.lenw

/-- The reset state of every block, with any host program and interleaving, meets the invariant; so does the state the
model starts from. -/
def Obligations.ResetMeetsInvariant : Prop :=
  State.reset.Inv ∧
  ∀ (lenw : Nat) (schedule : List Bool) (pending : List HostMove) (draws : Nat), 2 ≤ lenw →
    State.Inv { State.resetOf lenw with schedule := schedule, pending := pending, draws := draws }

/-- R18: every step keeps the flags' relations, so they hold in every reachable state; and from the flags of the reset
state, all 0, a step leaves them 0 but for a START of the host's, which sets `BUSY` alone. -/
def Obligations.ReachableStatesObeyFlagRules : Prop :=
  (∀ s t : State, s.FlagRules → step s = .next t → t.FlagRules) ∧
  (∀ s : State, Reachable s →
    ¬(s.busy = true ∧ s.done = true) ∧
    (s.err = true → s.done = true ∧ s.ok = false ∧ s.outlen = 0 ∧ decodeCommand s.cmd = .decode) ∧
    (s.ok = true → s.done = true) ∧
    (s.busy = true → s.done = false ∧ s.ok = false ∧ s.err = false ∧ s.outlen = 0)) ∧
  ∀ s t : State, s.status = 0b0000#4 → step s = .next t →
    t.status = 0b0000#4 ∨
    (t.status = 0b0001#4 ∧ ∃ m ms op, s.pending = m :: ms ∧ StartMove op m)

/-- R133: a step whose host move carries a START destroys the result and starts the command, one whose host move is a
reset destroys it, and every other step with no command running, also one with no host move, leaves it as it is; a
command leaves `IN` and `INLEN`. -/
def Obligations.ResultLastsUntilStartOrReset : Prop :=
  (∀ s t : State, s.busy = false → step s = .next t →
    (∀ m ms op, s.pending = m :: ms → StartMove op m →
      t.out = [] ∧ t.outlen = 0 ∧ t.status = 0b0001#4 ∧ t.cmd = op) ∧
    (∀ m ms, s.pending = m :: ms → ResetMove m → t.out = [] ∧ t.outlen = 0 ∧ t.status = 0b0000#4) ∧
    ((¬∃ m ms, s.pending = m :: ms ∧ (ResetMove m ∨ ∃ op, StartMove op m)) →
      t.out = s.out ∧ t.outlen = s.outlen ∧ t.status = s.status)) ∧
  ∀ (i : Instr) (s t : State), exec i s = .next t → t.inBuf = s.inBuf ∧ t.inlen = s.inlen

/-- While a command runs its operand and its code cannot change (R37 (b), R130): a step that leaves it running, or
completes it, leaves `IN`, `INLEN` and `CMD`; only a reset takes them. -/
def Obligations.OperandFixedWhileBusy : Prop :=
  ∀ s t : State, s.busy = true → step s = .next t →
    (t.inBuf = s.inBuf ∧ t.inlen = s.inlen ∧ t.cmd = s.cmd ∧
      ((t.busy = true ∧ t.status = s.status ∧ t.outlen = s.outlen) ∨ (t.busy = false ∧ t.done = true))) ∨
    (State.resetOf s.lenw).SameBlock t

/-- R40: a cell of `IN` once written keeps its value until a `WIN` of that cell or a reset: a step that changes a cell's
value found `BUSY = 0`, or was a reset. -/
def Obligations.InputCellsChangeOnlyByWinOrReset : Prop :=
  ∀ (s t : State) (a : Nat), step s = .next t → memRead t.inBuf a ≠ memRead s.inBuf a →
    ∃ m ms, s.pending = m :: ms ∧
      ((s.busy = false ∧ ∃ v, memRead t.inBuf a = some v ∧
          (m = .act (.win a v) ∨ ∃ p, m = .edge p ∧ p.rstN = true ∧ p.inWe = true ∧ p.inIdx = a ∧ p.inData = v)) ∨
       (memRead t.inBuf a = none ∧ (m = .reset ∨ ∃ p, m = .edge p ∧ p.rstN = false)))

/-- R134, liveness: a started command completes after as many steps as the host takes first, and leaves the result of
the operand as it stood, whatever single actions or `WAIT`s the host makes meanwhile. Rests on log entry 2. -/
def Obligations.StartedCommandCompletes : Prop :=
  ∀ (s : State) (X : List Byte), s.busy = true → s.HoldsOperand X →
    (∀ m ∈ s.pending, plainMove s.lenw m = true) →
    ∃ t : State, Host.Core.run Sys2Proof.core ((s.schedule.takeWhile id).length + 1) s = .next t ∧
      t.done = true ∧ t.busy = false ∧
      t.out = resultOf (decodeCommand s.cmd) X ∧ t.outlen = t.out.length ∧
      t.ok = okOf (decodeCommand s.cmd) X ∧ t.err = errOf (decodeCommand s.cmd) X ∧
      t.inBuf = s.inBuf ∧ t.inlen = s.inlen ∧ t.cmd = s.cmd

/-- The only stops (R113, R40; log entry 6 for the second fault): no step refuses, a step faults for an operand cell only
while a command runs whose operand has an unwritten cell, and for a port only where the host's next move does not fit
it. -/
def Obligations.StepsStopOnlyForTheseCauses : Prop :=
  ∀ s : State,
    (∀ r, step s ≠ .refused r) ∧
    (step s = .fault .unwrittenOperandCell → s.busy = true ∧ ∃ k, k < s.inlen ∧ memRead s.inBuf k = none) ∧
    (step s = .fault .portTooNarrow → ∃ m ms, s.pending = m :: ms ∧
      ((∃ a, m = .act a ∧ actionFits s.lenw a = false) ∨ (∃ p, m = .edge p ∧ portsFit s.lenw p = false) ∨
        ∃ n ys, m = .copyOut n ys ∧ 2 ^ (s.lenw + 1) ≤ ys.length))

/-- R121: the two pins are the two flags, and `err_o` is 1 only together with `done_o`. -/
def Obligations.StatusPinsCopyFlags : Prop :=
  ∀ s : State, donePin s = s.status.getLsbD 1 ∧ errPin s = s.status.getLsbD 3 ∧
    (s.Inv → errPin s = true → donePin s = true)
end

