-- ==== Sys2Proof/Laws/Codec.lean ====
section
/-! SUPPORT. The small laws of the units: the two look-up tables, one group of the encoder and of the decoder, and the
effective length. -/

namespace Sys2Proof.Machine

/-! ## The look-up units -/

/-- The reverse table inverts the alphabet (R62 (a), V-A9). -/
@[simp] theorem rlut_alut : ∀ s : Sym, rlut (alut s) = (true, s) := by decide

@[simp] theorem inAlphabet_alut (s : Sym) : inAlphabet (alut s) = true := by simp [inAlphabet]

/-- `PAD` is absent from the alphabet (R64). -/
@[simp] theorem inAlphabet_padCode : inAlphabet padCode = false := by decide

theorem alut_ne_padCode (s : Sym) : alut s ≠ padCode := by
  intro h
  have := inAlphabet_alut s
  rw [h, inAlphabet_padCode] at this
  cases this

theorem ne_padCode_of_inAlphabet {c : Byte} (h : inAlphabet c = true) : c ≠ padCode := by
  rintro rfl
  rw [inAlphabet_padCode] at h
  cases h

/-! ## The groups invert each other -/

theorem rcmb_symx_three (b0 b1 b2 : Byte) :
    (match symx b0 b1 b2 .three with | (s0, s1, s2, s3) => rcmb s0 s1 s2 s3 .four) = [b0, b1, b2] := by
  simp only [symx, symxFull, rcmb, rcmbByte0, rcmbByte1, rcmbByte2, List.cons.injEq, and_true]
  refine ⟨?_, ?_, ?_⟩ <;> ext i hi <;> interval_cases i <;> simp

theorem rcmb_symx_two (b0 b1 b2 : Byte) :
    (match symx b0 b1 b2 .two with | (s0, s1, s2, s3) => rcmb s0 s1 s2 s3 .three) = [b0, b1] := by
  simp only [symx, symxFull, rcmb, rcmbByte0, rcmbByte1, List.cons.injEq, and_true]
  refine ⟨?_, ?_⟩ <;> ext i hi <;> interval_cases i <;> simp

theorem rcmb_symx_one (b0 b1 b2 : Byte) :
    (match symx b0 b1 b2 .one with | (s0, s1, s2, s3) => rcmb s0 s1 s2 s3 .two) = [b0] := by
  simp only [symx, symxFull, rcmb, rcmbByte0, List.cons.injEq, and_true]
  ext i hi
  interval_cases i <;> simp

/-! ## Whole messages -/

/-- A group always yields four characters (R72). -/
@[simp] theorem encGroup_length (b0 b1 b2 : Byte) (r : BytesPresent) : (encGroup b0 b1 b2 r).length = 4 := by
  cases r <;> rfl

/-- Whole groups decode on their own: no bits are carried from one group to the next (R94). -/
theorem decodeGroups_append : ∀ (A B : List Byte), A.length % 4 = 0 →
    decodeGroups (A ++ B) = decodeGroups A ++ decodeGroups B
  | [], _, _ => rfl
  | [_], _, h => by simp at h
  | [_, _], _, h => by simp at h
  | [_, _, _], _, h => by simp at h
  | _ :: _ :: _ :: _ :: A, B, h => by
    have ih := decodeGroups_append A B (by simp only [List.length_cons] at h; omega)
    simp [decodeGroups, ih]

theorem effLen_le (T : List Byte) : effLen T ≤ T.length := by
  unfold effLen
  split
  · split <;> omega
  · exact Nat.le_refl _

/-- Up to two trailing `PAD` are set aside, down to a character that is not `PAD` (R100). -/
theorem effLen_append_pads {A : List Byte} {k : Nat} (hk : k ≤ 2) (h : ∀ c, A.getLast? = some c → c ≠ padCode) :
    effLen (A ++ List.replicate k padCode) = A.length := by
  rcases List.eq_nil_or_concat A with rfl | ⟨A, a, rfl⟩
  · interval_cases k <;> decide
  · rw [List.concat_eq_append] at h ⊢
    have ha : a ≠ padCode := h a (by simp)
    interval_cases k <;> simp [List.replicate, effLen, padAt, ha]

end Sys2Proof.Machine
end

