-- ==== Sys2Proof/Laws/Memory.lean ====
section
/-! SUPPORT. The laws of the buffers: a read after a write, and that every memory operation keeps the canonical form
and the depth. -/

namespace Sys2Proof.Machine

@[simp] theorem memRead_nil (i : Nat) : memRead [] i = none := rfl

/-- A write changes the cell it names and no other. -/
theorem memRead_memWrite (m : Memory) (i j : Nat) (v : Byte) :
    memRead (memWrite m i v) j = if i = j then some v else memRead m j := by
  induction m with
  | nil => simp [memWrite, memRead]
  | cons c m ih =>
    unfold memWrite
    split
    · simp [memRead]
    · split
      · subst_vars
        by_cases h : c.1 = j <;> simp [memRead, h]
      · simp only [memRead, ih]
        split <;> split <;> first | rfl | omega

@[simp] theorem memRead_memWrite_same (m : Memory) (i : Nat) (v : Byte) : memRead (memWrite m i v) i = some v := by
  simp [memRead_memWrite]

/-- The canonical form is a strictly rising list of indices. -/
theorem wf_iff_pairwise (m : Memory) : Memory.wf m = true ↔ m.Pairwise (fun x y => x.1 < y.1) := by
  induction m with
  | nil => simp [Memory.wf]
  | cons c m ih =>
    cases m with
    | nil => simp [Memory.wf]
    | cons d m =>
      simp only [Memory.wf, Bool.and_eq_true, decide_eq_true_eq, ih, List.pairwise_cons, List.mem_cons]
      constructor
      · rintro ⟨h, h1, h2⟩
        exact ⟨by rintro x (rfl | hx); exacts [h, h.trans (h1 x hx)], h1, h2⟩
      · rintro ⟨h, h1, h2⟩
        exact ⟨h d (.inl rfl), h1, h2⟩

/-- A written buffer holds the new entry and old ones. -/
theorem mem_memWrite {m : Memory} {i : Nat} {v : Byte} {c : Host.Cell} (h : c ∈ memWrite m i v) :
    c = (i, v) ∨ c ∈ m := by
  induction m with
  | nil => simpa [memWrite] using h
  | cons d m ih =>
    unfold memWrite at h
    split at h
    · simpa using h
    · split at h
      · rcases List.mem_cons.1 h with h | h
        · exact .inl h
        · exact .inr (List.mem_cons_of_mem _ h)
      · rcases List.mem_cons.1 h with h | h
        · exact .inr (h ▸ List.mem_cons_self)
        · exact (ih h).imp_right (List.mem_cons_of_mem _)

/-- A write keeps the canonical form. -/
theorem memWrite_wf {m : Memory} (h : Memory.wf m = true) (i : Nat) (v : Byte) : Memory.wf (memWrite m i v) = true := by
  rw [wf_iff_pairwise] at h ⊢
  induction m with
  | nil => simp [memWrite]
  | cons c m ih =>
    rw [List.pairwise_cons] at h
    unfold memWrite
    split
    · rename_i hi
      refine List.pairwise_cons.2 ⟨fun x hx => ?_, List.pairwise_cons.2 h⟩
      rcases List.mem_cons.1 hx with rfl | hx
      · exact hi
      · exact hi.trans (h.1 x hx)
    · split
      · rename_i hi
        exact List.pairwise_cons.2 ⟨fun x hx => hi ▸ h.1 x hx, h.2⟩
      · rename_i h1 h2
        refine List.pairwise_cons.2 ⟨fun x hx => ?_, ih h.2⟩
        rcases mem_memWrite hx with rfl | hx
        · show c.1 < i
          omega
        · exact h.1 x hx

/-- A write within the depth keeps every index within it. -/
theorem memWrite_within {m : Memory} {d i : Nat} (h : ∀ c ∈ m, c.1 < d) (hi : i < d) (v : Byte) :
    ∀ c ∈ memWrite m i v, c.1 < d := by
  intro c hc
  rcases mem_memWrite hc with rfl | hc
  exacts [hi, h c hc]

/-- Canonical buffers with the same cells are the same data. -/
theorem memory_ext {m n : Memory} (hm : Memory.wf m = true) (hn : Memory.wf n = true)
    (h : ∀ i, memRead m i = memRead n i) : m = n := by
  rw [wf_iff_pairwise] at hm hn
  have below : ∀ {p : Memory} {c : Host.Cell}, (∀ x ∈ p, c.1 < x.1) → ∀ i, i ≤ c.1 → memRead p i = none := by
    intro p c hp i hi
    induction p with
    | nil => rfl
    | cons x p ih =>
      have hx := hp x List.mem_cons_self
      rw [memRead, if_neg (by omega)]
      exact ih fun y hy => hp y (List.mem_cons_of_mem _ hy)
  induction m generalizing n with
  | nil =>
    cases n with
    | nil => rfl
    | cons d n => simpa [memRead] using h d.1
  | cons c m ih =>
    cases n with
    | nil => simpa [memRead] using h c.1
    | cons d n =>
      rw [List.pairwise_cons] at hm hn
      have hcd : c.1 = d.1 := by
        rcases Nat.lt_trichotomy c.1 d.1 with hlt | heq | hlt
        · have := h c.1
          rw [memRead, if_pos rfl, memRead, if_neg (by omega), below hn.1 _ (by omega)] at this
          cases this
        · exact heq
        · have := h d.1
          rw [memRead, if_neg (by omega), below hm.1 _ (by omega), memRead, if_pos rfl] at this
          cases this
      have hv : c = d := by
        have := h c.1
        rw [memRead, if_pos rfl, memRead, if_pos hcd.symm] at this
        exact Prod.ext hcd (Option.some.inj this)
      subst hv
      congr 1
      refine ih hm.2 hn.2 fun i => ?_
      by_cases hi : i ≤ c.1
      · rw [below hm.1 i hi, below hn.1 i hi]
      · have := h i
        rwa [memRead, if_neg (by omega), memRead, if_neg (by omega)] at this

end Sys2Proof.Machine
end

