-- ==== Sys2Proof/Laws/State.lean ====
section
/-! SUPPORT. One lemma per field per update of the state, each true by unfolding: later proofs cite these and unfold no
record update. -/

namespace Sys2Proof.Machine

/-! ## The status word -/

/-- Each flag is its bit of the word (R17). -/
theorem bits_statusWord : ∀ e o d b : Bool,
    (statusWord e o d b).getLsbD 0 = b ∧ (statusWord e o d b).getLsbD 1 = d ∧
    (statusWord e o d b).getLsbD 2 = o ∧ (statusWord e o d b).getLsbD 3 = e := by decide

theorem busy_of_status {s : State} {e o d b : Bool} (h : s.status = statusWord e o d b) : s.busy = b := by
  rw [State.busy, h]; exact (bits_statusWord e o d b).1

theorem done_of_status {s : State} {e o d b : Bool} (h : s.status = statusWord e o d b) : s.done = d := by
  rw [State.done, h]; exact (bits_statusWord e o d b).2.1

theorem ok_of_status {s : State} {e o d b : Bool} (h : s.status = statusWord e o d b) : s.ok = o := by
  rw [State.ok, h]; exact (bits_statusWord e o d b).2.2.1

theorem err_of_status {s : State} {e o d b : Bool} (h : s.status = statusWord e o d b) : s.err = e := by
  rw [State.err, h]; exact (bits_statusWord e o d b).2.2.2

/-- The five values a command's flags take (95_test_vectors.md, conventions). -/
theorem statusRunning_eq : statusRunning = 0b0001#4 := by decide
theorem statusCompleted_ok : statusCompleted true false = 0b0110#4 := by decide
theorem statusCompleted_notOk : statusCompleted false false = 0b0010#4 := by decide
theorem statusCompleted_raised : statusCompleted false true = 0b1010#4 := by decide
theorem statusWord_none : statusWord false false false false = 0b0000#4 := by decide

/-- The four flags are the whole word. -/
theorem status_eq_statusWord (s : State) : s.status = statusWord s.err s.ok s.done s.busy := by
  obtain ⟨_, _, _, _, _, _, st, _, _, _, _⟩ := s
  revert st
  simp only [State.err, State.ok, State.done, State.busy]
  decide

/-- The flags depend on nothing but the word. -/
theorem flags_of_status {s t : State} (h : t.status = s.status) :
    t.busy = s.busy ∧ t.done = s.done ∧ t.ok = s.ok ∧ t.err = s.err := by
  simp [State.busy, State.done, State.ok, State.err, h]

/-! ## `publish` -/

@[simp] theorem publish_lenw (s : State) (R : List Byte) (o e : Bool) : (publish s R o e).lenw = s.lenw := rfl
@[simp] theorem publish_inBuf (s : State) (R : List Byte) (o e : Bool) : (publish s R o e).inBuf = s.inBuf := rfl
@[simp] theorem publish_inlen (s : State) (R : List Byte) (o e : Bool) : (publish s R o e).inlen = s.inlen := rfl
@[simp] theorem publish_out (s : State) (R : List Byte) (o e : Bool) : (publish s R o e).out = R := rfl
@[simp] theorem publish_outlen (s : State) (R : List Byte) (o e : Bool) : (publish s R o e).outlen = R.length := rfl
@[simp] theorem publish_cmd (s : State) (R : List Byte) (o e : Bool) : (publish s R o e).cmd = s.cmd := rfl
@[simp] theorem publish_schedule (s : State) (R : List Byte) (o e : Bool) :
    (publish s R o e).schedule = s.schedule := rfl
@[simp] theorem publish_pending (s : State) (R : List Byte) (o e : Bool) : (publish s R o e).pending = s.pending := rfl
@[simp] theorem publish_returned (s : State) (R : List Byte) (o e : Bool) :
    (publish s R o e).returned = s.returned := rfl
@[simp] theorem publish_draws (s : State) (R : List Byte) (o e : Bool) : (publish s R o e).draws = s.draws := rfl
@[simp] theorem publish_busy (s : State) (R : List Byte) (o e : Bool) : (publish s R o e).busy = false :=
  busy_of_status rfl
@[simp] theorem publish_done (s : State) (R : List Byte) (o e : Bool) : (publish s R o e).done = true :=
  done_of_status rfl
@[simp] theorem publish_ok (s : State) (R : List Byte) (o e : Bool) : (publish s R o e).ok = o :=
  ok_of_status rfl
@[simp] theorem publish_err (s : State) (R : List Byte) (o e : Bool) : (publish s R o e).err = e :=
  err_of_status rfl

/-! ## `resetBlock` -/

@[simp] theorem resetBlock_lenw (s : State) : (resetBlock s).lenw = s.lenw := rfl
@[simp] theorem resetBlock_inBuf (s : State) : (resetBlock s).inBuf = [] := rfl
@[simp] theorem resetBlock_inlen (s : State) : (resetBlock s).inlen = 0 := rfl
@[simp] theorem resetBlock_out (s : State) : (resetBlock s).out = [] := rfl
@[simp] theorem resetBlock_outlen (s : State) : (resetBlock s).outlen = 0 := rfl
@[simp] theorem resetBlock_cmd (s : State) : (resetBlock s).cmd = 0#2 := rfl
@[simp] theorem resetBlock_status (s : State) : (resetBlock s).status = 0#4 := rfl
@[simp] theorem resetBlock_schedule (s : State) : (resetBlock s).schedule = s.schedule := rfl
@[simp] theorem resetBlock_pending (s : State) : (resetBlock s).pending = s.pending := rfl
@[simp] theorem resetBlock_returned (s : State) : (resetBlock s).returned = s.returned := rfl
@[simp] theorem resetBlock_draws (s : State) : (resetBlock s).draws = s.draws := rfl
@[simp] theorem resetBlock_busy (s : State) : (resetBlock s).busy = false :=
  busy_of_status (s := resetBlock s) (e := false) (o := false) (d := false) (b := false) rfl
@[simp] theorem resetBlock_done (s : State) : (resetBlock s).done = false :=
  done_of_status (s := resetBlock s) (e := false) (o := false) (d := false) (b := false) rfl
@[simp] theorem resetBlock_ok (s : State) : (resetBlock s).ok = false :=
  ok_of_status (s := resetBlock s) (e := false) (o := false) (d := false) (b := false) rfl
@[simp] theorem resetBlock_err (s : State) : (resetBlock s).err = false :=
  err_of_status (s := resetBlock s) (e := false) (o := false) (d := false) (b := false) rfl

/-! ## `startCommand` -/

/-- R130: a START while a command runs changes nothing. -/
theorem startCommand_of_busy {s : State} (h : s.busy = true) (op : BitVec 2) : startCommand s op = s := by
  simp [startCommand, h]

/-- R20: what a START that takes effect does. -/
theorem startCommand_of_idle {s : State} (h : s.busy = false) (op : BitVec 2) :
    startCommand s op = { s with cmd := op, status := statusRunning, out := [], outlen := 0 } := by
  simp [startCommand, h]

@[simp] theorem startCommand_lenw (s : State) (op : BitVec 2) : (startCommand s op).lenw = s.lenw := by
  unfold startCommand; split <;> rfl
@[simp] theorem startCommand_inBuf (s : State) (op : BitVec 2) : (startCommand s op).inBuf = s.inBuf := by
  unfold startCommand; split <;> rfl
@[simp] theorem startCommand_inlen (s : State) (op : BitVec 2) : (startCommand s op).inlen = s.inlen := by
  unfold startCommand; split <;> rfl
@[simp] theorem startCommand_schedule (s : State) (op : BitVec 2) : (startCommand s op).schedule = s.schedule := by
  unfold startCommand; split <;> rfl
@[simp] theorem startCommand_pending (s : State) (op : BitVec 2) : (startCommand s op).pending = s.pending := by
  unfold startCommand; split <;> rfl
@[simp] theorem startCommand_returned (s : State) (op : BitVec 2) : (startCommand s op).returned = s.returned := by
  unfold startCommand; split <;> rfl
@[simp] theorem startCommand_draws (s : State) (op : BitVec 2) : (startCommand s op).draws = s.draws := by
  unfold startCommand; split <;> rfl
/-- After a START a command runs, this one or the one that ran before. -/
@[simp] theorem startCommand_busy (s : State) (op : BitVec 2) : (startCommand s op).busy = true := by
  unfold startCommand; split
  · assumption
  · exact busy_of_status (b := true) rfl

/-! ## The host's reads, its program, and the schedule -/

/-- A register read changes nothing of the block (R35). -/
theorem returnReg_sameBlock (s : State) (sel : BitVec 2) : s.SameBlock (returnReg s sel) :=
  ⟨rfl, rfl, rfl, rfl, rfl, rfl, rfl⟩

/-- A read of `OUT` changes nothing of the block (R35). -/
theorem returnCell_sameBlock (s : State) (i : Nat) : s.SameBlock (returnCell s i) :=
  ⟨rfl, rfl, rfl, rfl, rfl, rfl, rfl⟩

/-- Adding to the host's program changes nothing of the block. -/
theorem pushMoves_sameBlock (ms : List HostMove) (s : State) : s.SameBlock (pushMoves ms s) :=
  ⟨rfl, rfl, rfl, rfl, rfl, rfl, rfl⟩

/-- Using an entry of the schedule changes nothing of the block. -/
theorem advance_sameBlock (s : State) : s.SameBlock (advance s) := ⟨rfl, rfl, rfl, rfl, rfl, rfl, rfl⟩

@[simp] theorem returnReg_pending (s : State) (sel : BitVec 2) : (returnReg s sel).pending = s.pending := rfl
@[simp] theorem returnReg_schedule (s : State) (sel : BitVec 2) : (returnReg s sel).schedule = s.schedule := rfl
@[simp] theorem returnReg_draws (s : State) (sel : BitVec 2) : (returnReg s sel).draws = s.draws := rfl
@[simp] theorem returnReg_returned (s : State) (sel : BitVec 2) :
    (returnReg s sel).returned = .reg sel (regRead s sel) :: s.returned := rfl
@[simp] theorem returnCell_pending (s : State) (i : Nat) : (returnCell s i).pending = s.pending := rfl
@[simp] theorem returnCell_schedule (s : State) (i : Nat) : (returnCell s i).schedule = s.schedule := rfl
@[simp] theorem returnCell_returned (s : State) (i : Nat) :
    (returnCell s i).returned = .cell i (outData s i) :: s.returned := rfl
@[simp] theorem pushMoves_pending (ms : List HostMove) (s : State) : (pushMoves ms s).pending = ms ++ s.pending := rfl
@[simp] theorem pushMoves_schedule (ms : List HostMove) (s : State) : (pushMoves ms s).schedule = s.schedule := rfl
@[simp] theorem pushMoves_returned (ms : List HostMove) (s : State) : (pushMoves ms s).returned = s.returned := rfl
@[simp] theorem pushMoves_draws (ms : List HostMove) (s : State) : (pushMoves ms s).draws = s.draws := rfl
@[simp] theorem advance_schedule (s : State) : (advance s).schedule = s.schedule.tail := rfl
@[simp] theorem advance_pending (s : State) : (advance s).pending = s.pending := rfl
@[simp] theorem advance_returned (s : State) : (advance s).returned = s.returned := rfl
@[simp] theorem advance_draws (s : State) : (advance s).draws = s.draws := rfl
@[simp] theorem advance_inBuf (s : State) : (advance s).inBuf = s.inBuf := rfl
@[simp] theorem advance_cmd (s : State) : (advance s).cmd = s.cmd := rfl
@[simp] theorem advance_status (s : State) : (advance s).status = s.status := rfl
@[simp] theorem advance_busy (s : State) : (advance s).busy = s.busy := rfl
@[simp] theorem advance_out (s : State) : (advance s).out = s.out := rfl
@[simp] theorem advance_outlen (s : State) : (advance s).outlen = s.outlen := rfl
@[simp] theorem advance_lenw (s : State) : (advance s).lenw = s.lenw := rfl
@[simp] theorem advance_inlen (s : State) : (advance s).inlen = s.inlen := rfl

end Sys2Proof.Machine
end

