-- ==== Sys2Proof/Laws/Ops.lean ====
section
/-! SUPPORT. What the shared operations can do, said once: reading the operand, the four commands over it, the host's
actions. The proofs cite these instead of unfolding. -/

namespace Sys2Proof.Machine

/-! ## The operand -/

/-- `readCells` succeeds exactly on written cells, and gives their values in order. -/
theorem readCells_eq_some {m : Memory} {i n : Nat} {X : List Byte} :
    readCells m i n = some X ↔ X.length = n ∧ ∀ k, k < n → memRead m (i + k) = X[k]? := by
  induction n generalizing i X with
  | zero =>
    simp only [readCells, Option.some.injEq]
    exact ⟨fun h => h ▸ ⟨rfl, by simp⟩, fun h => (List.length_eq_zero_iff.1 h.1).symm⟩
  | succ n ih =>
    unfold readCells
    constructor
    · intro h
      split at h
      · rename_i b bs hb hbs
        cases h
        obtain ⟨hl, hk⟩ := ih.1 hbs
        refine ⟨by simp [hl], fun k hk' => ?_⟩
        cases k with
        | zero => simpa using hb
        | succ k => simpa [Nat.add_assoc, Nat.add_comm 1 k] using hk k (by omega)
      · cases h
    · rintro ⟨hl, hk⟩
      cases X with
      | nil => simp at hl
      | cons b bs =>
        have hb : memRead m i = some b := by simpa using hk 0 (by omega)
        have hbs : readCells m (i + 1) n = some bs := by
          refine ih.2 ⟨by simpa using hl, fun k hk' => ?_⟩
          have := hk (k + 1) (by omega)
          simpa [Nat.add_assoc, Nat.add_comm 1 k] using this
        simp [hb, hbs]

/-- The operand of the block (R21), in the statements' words. -/
theorem readOperand_eq_some {s : State} {X : List Byte} : readOperand s = some X ↔ s.HoldsOperand X := by
  simp [readOperand, readCells_eq_some, State.HoldsOperand]

/-- The operand is there exactly when every one of its cells is written (R132). -/
theorem operandWritten_iff {s : State} : s.OperandWritten ↔ ∃ X, s.HoldsOperand X := by
  constructor
  · intro h
    refine ⟨(List.range s.inlen).map fun i => (memRead s.inBuf i).getD 0#8, by simp, fun i hi => ?_⟩
    obtain ⟨v, hv⟩ := Option.isSome_iff_exists.1 (h i hi)
    simp [hi, hv]
  · rintro ⟨X, hl, h⟩ i hi
    rw [h i hi, List.getElem?_eq_getElem (hl ▸ hi)]
    rfl

/-- A block holds one operand at most. -/
theorem HoldsOperand_unique {s : State} {X Y : List Byte} (hX : s.HoldsOperand X) (hY : s.HoldsOperand Y) : X = Y :=
  Option.some.inj ((readOperand_eq_some.2 hX).symm.trans (readOperand_eq_some.2 hY))

/-- The operand depends on `INLEN` and `IN` only. -/
theorem HoldsOperand_congr {s t : State} {X : List Byte} (hm : t.inBuf = s.inBuf) (hn : t.inlen = s.inlen) :
    t.HoldsOperand X ↔ s.HoldsOperand X := by simp [State.HoldsOperand, hm, hn]

theorem onOperand_of_holds {s : State} {X : List Byte} (h : s.HoldsOperand X) (f : List Byte → State) :
    onOperand s f = .next (f X) := by simp [onOperand, readOperand_eq_some.2 h]

theorem onOperand_of_unwritten {s : State} (h : ¬s.OperandWritten) (f : List Byte → State) :
    onOperand s f = .fault .unwrittenOperandCell := by
  have hn : readOperand s = none := by
    rw [operandWritten_iff] at h
    cases hr : readOperand s with
    | none => rfl
    | some X => exact absurd ⟨X, readOperand_eq_some.1 hr⟩ h
  simp [onOperand, hn]

/-- All that an operand step can do. -/
theorem onOperand_cases (s : State) (f : List Byte → State) :
    (∃ X, s.HoldsOperand X ∧ onOperand s f = .next (f X)) ∨
    (¬s.OperandWritten ∧ onOperand s f = .fault .unwrittenOperandCell) := by
  by_cases h : s.OperandWritten
  · obtain ⟨X, hX⟩ := operandWritten_iff.1 h
    exact .inl ⟨X, hX, onOperand_of_holds hX f⟩
  · exact .inr ⟨h, onOperand_of_unwritten h f⟩

/-! ## The four commands -/

/-- Every command is one operand step that publishes a result (R21). -/
theorem exec_eq_onOperand (i : Instr) (s : State) :
    exec i s = onOperand s fun X => publish s (resultOf i X) (okOf i X) (errOf i X) := by
  cases i <;> simp only [exec, execEncode, execDecode, execTryDecode, execIsValid, onOperand, raiseInvalidEncoding] <;>
    cases readOperand s <;> simp only [resultOf, okOf, errOf]
  all_goals rename_i X; cases isValidText X <;> rfl

/-- All that a command can do: publish the result of its operand, or fault on an unwritten cell. -/
theorem exec_cases (i : Instr) (s : State) :
    (∃ X, s.HoldsOperand X ∧ exec i s = .next (publish s (resultOf i X) (okOf i X) (errOf i X))) ∨
    (¬s.OperandWritten ∧ exec i s = .fault .unwrittenOperandCell) := by
  rw [exec_eq_onOperand]
  exact onOperand_cases s _

/-- The same, from a next state. -/
theorem exec_next {i : Instr} {s t : State} (h : exec i s = .next t) :
    ∃ X, s.HoldsOperand X ∧ t = publish s (resultOf i X) (okOf i X) (errOf i X) := by
  rcases exec_cases i s with ⟨X, hX, he⟩ | ⟨_, he⟩
  · rw [he] at h
    cases h
    exact ⟨X, hX, rfl⟩
  · rw [he] at h
    cases h

/-! ## The host's actions -/

/-- While a command runs no host action changes the block (R130, R131). -/
theorem hostAct_of_busy {s : State} (h : s.busy = true) (a : HostAction) : s.SameBlock (hostAct a s) := by
  cases a <;> simp only [hostAct, h, if_true, startCommand_of_busy h] <;>
    first
    | exact returnReg_sameBlock s _
    | exact returnCell_sameBlock s _
    | exact ⟨rfl, rfl, rfl, rfl, rfl, rfl, rfl⟩

/-- All that a host action can do to the block: nothing, a write to one cell of `IN`, a new `INLEN`, or a START. -/
theorem hostAct_cases (a : HostAction) (s : State) :
    s.SameBlock (hostAct a s) ∨
    (s.busy = false ∧ ((∃ i v, a = .win i v ∧ hostAct a s = { s with inBuf := memWrite s.inBuf i v }) ∨
      (∃ n, a = .wlen n ∧ hostAct a s = { s with inlen := n }) ∨
      (∃ op, a = .start op ∧
        hostAct a s = { s with cmd := op, status := statusRunning, out := [], outlen := 0 }))) := by
  cases hb : s.busy with
  | true => exact .inl (hostAct_of_busy hb a)
  | false =>
    cases a with
    | win i v => exact .inr ⟨rfl, .inl ⟨i, v, rfl, by simp [hostAct, hb]⟩⟩
    | wlen n => exact .inr ⟨rfl, .inr (.inl ⟨n, rfl, by simp [hostAct, hb]⟩)⟩
    | start op => exact .inr ⟨rfl, .inr (.inr ⟨op, rfl, startCommand_of_idle hb op⟩)⟩
    | rstat => exact .inl (returnReg_sameBlock s _)
    | rlen => exact .inl (returnReg_sameBlock s _)
    | rout i => exact .inl (returnCell_sameBlock s i)
    | rcmd => exact .inl (returnReg_sameBlock s _)
    | rinlen => exact .inl (returnReg_sameBlock s _)
    | wstatus v => exact .inl ⟨rfl, rfl, rfl, rfl, rfl, rfl, rfl⟩
    | woutlen v => exact .inl ⟨rfl, rfl, rfl, rfl, rfl, rfl, rfl⟩

/-- No action touches the interleaving or the host's program. -/
theorem hostAct_schedule (a : HostAction) (s : State) :
    (hostAct a s).schedule = s.schedule ∧ (hostAct a s).pending = s.pending := by
  cases a <;> simp only [hostAct] <;> first | exact ⟨rfl, rfl⟩ | (split <;> exact ⟨rfl, rfl⟩) | simp

/-! ## `SameBlock` -/

theorem SameBlock_refl (s : State) : s.SameBlock s := ⟨rfl, rfl, rfl, rfl, rfl, rfl, rfl⟩

theorem SameBlock_trans {s t u : State} (h : s.SameBlock t) (g : t.SameBlock u) : s.SameBlock u := by
  obtain ⟨h1, h2, h3, h4, h5, h6, h7⟩ := h
  obtain ⟨g1, g2, g3, g4, g5, g6, g7⟩ := g
  exact ⟨g1.trans h1, g2.trans h2, g3.trans h3, g4.trans h4, g5.trans h5, g6.trans h6, g7.trans h7⟩

/-- The flags' relations (R18) speak of the block only. -/
theorem FlagRules_of_sameBlock {s t : State} (h : s.SameBlock t) (hf : s.FlagRules) : t.FlagRules := by
  obtain ⟨_, _, _, _, h5, h6, h7⟩ := h
  obtain ⟨f1, f2, f3, f4⟩ := flags_of_status h7
  obtain ⟨i7, i8, i9, i10⟩ := hf
  exact ⟨by rw [f1, f2]; exact i7, by rw [f4, f2, f3, h5, h6]; exact i8, by rw [f3, f2]; exact i9,
    by rw [f1, f2, f3, f4, h5]; exact i10⟩

/-- The invariant speaks of the block only. -/
theorem Inv_of_sameBlock {s t : State} (h : s.SameBlock t) (hi : s.Inv) : t.Inv := by
  have hf := FlagRules_of_sameBlock h hi.flags
  obtain ⟨h1, h2, h3, h4, h5, _, _⟩ := h
  obtain ⟨i1, i2, i3, i4, i5, i6, _⟩ := hi
  refine ⟨h1 ▸ i1, h2 ▸ i2, ?_, by rw [h1, h3]; exact i4, by rw [h4, h5]; exact i5, by rw [h1, h5]; exact i6, hf⟩
  rw [h2, h1]
  exact i3

end Sys2Proof.Machine
end

