-- ==== Sys2Proof/Laws/PerInstr.lean ====
section
/-! SUPPORT. The per-instruction family `CommandWord`: each command is well formed and its word, as the opcode table
numbers it, decodes to it. -/

namespace Sys2Proof.Laws.CommandWord

/-- The command's word decodes to the command, as a word and as a table entry (R46). -/
def Statement (i : Instr) : Prop :=
  i.wellFormed = true ∧ decodeCommand (Sys2Proof.encode i) = i ∧
    decodeTableWord 8 (Sys2Proof.encode i).toNat = some i

theorem encode : Statement .encode := ⟨rfl, by decide, by decide⟩
theorem decode : Statement .decode := ⟨rfl, by decide, by decide⟩
theorem tryDecode : Statement .tryDecode := ⟨rfl, by decide, by decide⟩
theorem isValid : Statement .isValid := ⟨rfl, by decide, by decide⟩

end Sys2Proof.Laws.CommandWord
end

