-- ==== Sys2Proof/Laws/Step.lean ====
section
/-! SUPPORT. What one step can do, said once, and the rule every invariant goes through: a property of the block that
the host's actions, a reset and a completion step keep is kept by every step. -/

namespace Sys2Proof.Machine

/-- One step is the completion step of the command in `CMD`, or a turn of the host. -/
theorem step_cases (s : State) :
    (s.busy = true ∧ s.schedule.headD false = false ∧ step s = exec (decodeCommand s.cmd) (advance s)) ∨
    (s.busy = true ∧ s.schedule.headD false = true ∧ step s = hostTurn (advance s)) ∨
    (s.busy = false ∧ step s = hostTurn s) := by
  cases hb : s.busy with
  | false => exact .inr (.inr ⟨rfl, by simp [step, hb]⟩)
  | true =>
    cases hs : s.schedule.headD false with
    | false => exact .inl ⟨rfl, rfl, by unfold step engineMoves; rw [hb, hs]; rfl⟩
    | true => exact .inr (.inl ⟨rfl, rfl, by unfold step engineMoves; rw [hb, hs]; rfl⟩)

/-! ## Runs -/

/-- A run of no steps. -/
theorem run_zero (s : State) : Host.Core.run Sys2Proof.core 0 s = .next s := rfl

/-- A run whose first step has a next state goes on from there. -/
theorem run_succ {s t : State} (h : step s = .next t) (k : Nat) :
    Host.Core.run Sys2Proof.core (k + 1) s = Host.Core.run Sys2Proof.core k t := by
  have h' : Sys2Proof.core.step s = .next t := h
  simp only [Host.Core.run, h']

/-! ## The actions of one edge are within the ports' range -/

theorem regReadAction_fits (lenw : Nat) (sel : BitVec 2) : actionFits lenw (regReadAction sel) = true := by
  unfold regReadAction
  split
  · rfl
  · split
    · rfl
    · split <;> rfl

theorem regWriteAction_fits {lenw w : Nat} (h : w < 2 ^ lenw) (sel : BitVec 2) :
    actionFits lenw (regWriteAction sel w) = true := by
  unfold regWriteAction
  split
  · rfl
  · split
    · simpa [actionFits] using h
    · split <;> simpa [actionFits] using h

theorem portActions_fit {lenw : Nat} {p : Ports} (h : portsFit lenw p = true) :
    (∀ a ∈ portReads p, actionFits lenw a = true) ∧ (∀ a ∈ portWrites p, actionFits lenw a = true) := by
  simp only [portsFit, Bool.and_eq_true, decide_eq_true_eq] at h
  obtain ⟨⟨h1, h2⟩, h3⟩ := h
  constructor
  · intro a ha
    simp only [portReads, List.mem_append, List.mem_singleton] at ha
    rcases ha with ha | rfl
    · split at ha
      · cases ha
      · rw [List.mem_singleton.1 ha]
        exact regReadAction_fits lenw _
    · simpa [actionFits] using h3
  · intro a ha
    simp only [portWrites, List.mem_append] at ha
    rcases ha with ha | ha
    · split at ha
      · rw [List.mem_singleton.1 ha]
        simpa [actionFits] using h2
      · cases ha
    · split at ha
      · rw [List.mem_singleton.1 ha]
        exact regWriteAction_fits h1 _
      · cases ha

theorem hostAct_lenw (a : HostAction) (s : State) : (hostAct a s).lenw = s.lenw := by
  rcases hostAct_cases a s with h | ⟨_, ⟨_, _, _, h⟩ | ⟨_, _, h⟩ | ⟨_, _, h⟩⟩
  · exact h.1
  all_goals rw [h]

/-! ## Clock edges -/

theorem hostActs_append (as bs : List HostAction) (s : State) :
    hostActs (as ++ bs) s = hostActs bs (hostActs as s) := by simp [hostActs]

/-- The reads of an edge change nothing of the block (R35). -/
theorem portReads_sameBlock (p : Ports) (s : State) : s.SameBlock (hostActs (portReads p) s) := by
  unfold portReads regReadAction
  split_ifs <;> exact ⟨rfl, rfl, rfl, rfl, rfl, rfl, rfl⟩

/-- An edge without reset is its reads and then its writes (R26). -/
theorem clockEdge_of_running {p : Ports} (h : p.rstN = true) (s : State) :
    clockEdge p s = hostActs (portWrites p) (hostActs (portReads p) s) := by
  simp [clockEdge, h, hostActs_append]

/-- An edge with `rst_n = 0` leaves the reset block, whatever it writes (R125). -/
theorem clockEdge_of_reset {p : Ports} (h : p.rstN = false) (s : State) :
    (resetBlock s).SameBlock (clockEdge p s) := by
  simpa [clockEdge, h] using portReads_sameBlock p (resetBlock s)

/-! ## The result, move by move -/

/-- Only a START touches the result and the flags (R20, R133). -/
theorem hostAct_result {a : HostAction} (ha : ∀ op, a ≠ .start op) (s : State) :
    (hostAct a s).out = s.out ∧ (hostAct a s).outlen = s.outlen ∧ (hostAct a s).status = s.status := by
  rcases hostAct_cases a s with h | ⟨_, ⟨_, _, _, h⟩ | ⟨_, _, h⟩ | ⟨op, rfl, _⟩⟩
  · exact ⟨h.2.2.2.1, h.2.2.2.2.1, h.2.2.2.2.2.2⟩
  · rw [h]
    exact ⟨rfl, rfl, rfl⟩
  · rw [h]
    exact ⟨rfl, rfl, rfl⟩
  · exact absurd rfl (ha op)

theorem regWriteAction_ne_start {sel : BitVec 2} (h : sel ≠ 0#2) (w : Nat) (op : BitVec 2) :
    regWriteAction sel w ≠ .start op := by
  unfold regWriteAction
  rw [if_neg h]
  split
  · exact HostAction.noConfusion
  · split <;> exact HostAction.noConfusion

/-- The writes of an edge that writes no register 0 leave the result. -/
theorem portWrites_result {p : Ports} (h : p.regWe = true → p.regSel ≠ 0#2) (s : State) :
    (hostActs (portWrites p) s).out = s.out ∧ (hostActs (portWrites p) s).outlen = s.outlen ∧
    (hostActs (portWrites p) s).status = s.status := by
  have win := hostAct_result (a := .win p.inIdx p.inData) (fun _ => HostAction.noConfusion)
  have reg : p.regWe = true → ∀ u, _ := fun hw => hostAct_result (regWriteAction_ne_start (h hw) p.regWdata)
  unfold portWrites
  cases hi : p.inWe <;> cases hw : p.regWe <;> simp only [hostActs, if_true, Bool.false_eq_true, if_false,
    List.nil_append, List.append_nil, List.cons_append, List.foldl_cons, List.foldl_nil, and_self]
  · exact reg hw s
  · exact win s
  · obtain ⟨w1, w2, w3⟩ := win s
    obtain ⟨r1, r2, r3⟩ := reg hw (hostAct (.win p.inIdx p.inData) s)
    exact ⟨r1.trans w1, r2.trans w2, r3.trans w3⟩

/-- An edge that carries no START and no reset leaves the result (R133). -/
theorem clockEdge_result {p : Ports} (hr : p.rstN = true) (h : p.regWe = true → p.regSel ≠ 0#2) (s : State) :
    (clockEdge p s).out = s.out ∧ (clockEdge p s).outlen = s.outlen ∧ (clockEdge p s).status = s.status := by
  rw [clockEdge_of_running hr]
  obtain ⟨w1, w2, w3⟩ := portWrites_result h (hostActs (portReads p) s)
  obtain ⟨_, _, _, b1, b2, _, b3⟩ := portReads_sameBlock p s
  exact ⟨w1.trans b1, w2.trans b2, w3.trans b3⟩

/-- An edge that carries a START starts the command when none runs (R20, R26). -/
theorem clockEdge_start {p : Ports} (hr : p.rstN = true) (hw : p.regWe = true) (hs : p.regSel = 0#2) {s : State}
    (hb : s.busy = false) :
    (clockEdge p s).out = [] ∧ (clockEdge p s).outlen = 0 ∧ (clockEdge p s).status = statusRunning ∧
    (clockEdge p s).cmd = commandWord p.regWdata := by
  rw [clockEdge_of_running hr]
  have hu : (hostActs (portReads p) s).busy = false :=
    (flags_of_status (portReads_sameBlock p s).2.2.2.2.2.2).1.trans hb
  generalize hostActs (portReads p) s = u at hu
  have hwin : (hostAct (.win p.inIdx p.inData) u).busy = false :=
    (flags_of_status (hostAct_result (fun _ => HostAction.noConfusion) u).2.2).1.trans hu
  have start : ∀ v : State, v.busy = false →
      hostAct (regWriteAction p.regSel p.regWdata) v =
        { v with cmd := commandWord p.regWdata, status := statusRunning, out := [], outlen := 0 } := by
    intro v hv
    rw [regWriteAction, if_pos hs]
    exact startCommand_of_idle hv _
  unfold portWrites
  cases p.inWe <;> simp only [hostActs, hw, if_true, Bool.false_eq_true, if_false, List.nil_append, List.cons_append,
    List.foldl_cons, List.foldl_nil]
  · rw [start u hu]
    exact ⟨rfl, rfl, rfl, rfl⟩
  · rw [start _ hwin]
    exact ⟨rfl, rfl, rfl, rfl⟩

/-! ## Properties of the block -/

/-- A property of the block (unchanged by what only the host's side sees) that every action within range keeps is kept
by a list of them. -/
theorem hostActs_keep {P : State → Prop}
    (hA : ∀ a s, actionFits s.lenw a = true → P s → P (hostAct a s)) :
    ∀ (as : List HostAction) (s : State), (∀ a ∈ as, actionFits s.lenw a = true) → P s → P (hostActs as s) := by
  intro as
  induction as with
  | nil => exact fun s _ h => h
  | cons a as ih =>
    intro s hf hP
    refine ih _ (fun b hb => ?_) (hA a s (hf a List.mem_cons_self) hP)
    rw [hostAct_lenw]
    exact hf b (List.mem_cons_of_mem _ hb)

/-- A clock edge keeps what its actions and a reset keep. -/
theorem clockEdge_keep {P : State → Prop}
    (hA : ∀ a s, actionFits s.lenw a = true → P s → P (hostAct a s)) (hR : ∀ s, P s → P (resetBlock s))
    {p : Ports} {s : State} (hf : portsFit s.lenw p = true) (hP : P s) : P (clockEdge p s) := by
  obtain ⟨fr, fw⟩ := portActions_fit hf
  unfold clockEdge
  split
  · refine hostActs_keep hA _ s (fun a ha => ?_) hP
    exact (List.mem_append.1 ha).elim (fr a) (fw a)
  · exact hostActs_keep hA _ _ fr (hR s hP)

/-- A turn of the host keeps what its actions and a reset keep. -/
theorem hostTurn_keep {P : State → Prop} (hB : ∀ s t : State, s.SameBlock t → P s → P t)
    (hA : ∀ a s, actionFits s.lenw a = true → P s → P (hostAct a s)) (hR : ∀ s, P s → P (resetBlock s))
    {s t : State} (hP : P s) (h : hostTurn s = .next t) : P t := by
  have checked : ∀ {a : HostAction} {u : State}, P u → hostActChecked a u = .next t → P t := by
    intro a u hu hc
    unfold hostActChecked at hc
    split at hc
    · cases hc
      exact hA a u ‹_› hu
    · cases hc
  have pushed : ∀ (ms : List HostMove) (u : State), P u → P (pushMoves ms u) :=
    fun ms u hu => hB _ _ (pushMoves_sameBlock ms u) hu
  unfold hostTurn at h
  split at h
  · cases h
    exact hP
  · rename_i m ms hm
    have hP' : P { s with pending := ms } := hB s _ ⟨rfl, rfl, rfl, rfl, rfl, rfl, rfl⟩ hP
    generalize ({ s with pending := ms } : State) = u at h hP'
    cases m with
    | act a => exact checked hP' h
    | edge p =>
      simp only [hostMove] at h
      split at h
      · cases h
        exact clockEdge_keep hA hR ‹_› hP'
      · cases h
    | reset =>
      cases h
      exact hR _ hP'
    | wait =>
      cases h
      refine hA _ _ rfl ?_
      split
      exacts [hP', pushed _ _ hP']
    | read =>
      cases h
      exact hA _ _ rfl (pushed _ _ hP')
    | readUnlessErr =>
      cases h
      refine hA _ _ rfl ?_
      split
      exacts [hP', pushed _ _ hP']
    | copyback =>
      cases h
      exact hA _ _ rfl (pushed _ _ hP')
    | copyOut m ys => exact checked (pushed _ _ hP') h

/-- The rule of the invariants: a property of the block that the host's actions, a reset and the completion step of
the command in `CMD` keep is kept by every step. -/
theorem step_keep {P : State → Prop} (hB : ∀ s t : State, s.SameBlock t → P s → P t)
    (hA : ∀ a s, actionFits s.lenw a = true → P s → P (hostAct a s)) (hR : ∀ s, P s → P (resetBlock s))
    (hC : ∀ s X, s.busy = true → s.HoldsOperand X → P s →
      P (publish s (resultOf (decodeCommand s.cmd) X) (okOf (decodeCommand s.cmd) X) (errOf (decodeCommand s.cmd) X)))
    {s t : State} (hP : P s) (h : step s = .next t) : P t := by
  have hadv : P (advance s) := hB _ _ (advance_sameBlock s) hP
  rcases step_cases s with ⟨hb, _, he⟩ | ⟨_, _, he⟩ | ⟨_, he⟩ <;> rw [he] at h
  · obtain ⟨X, hX, rfl⟩ := exec_next h
    have hb' : (advance s).busy = true := hb
    exact hC (advance s) X hb' hX hadv
  · exact hostTurn_keep hB hA hR hadv h
  · exact hostTurn_keep hB hA hR hP h

/-- Every reachable state has what holds at reset and is kept by every step. -/
theorem reachable_induction {P : State → Prop}
    (h0 : ∀ lenw, 2 ≤ lenw → ∀ schedule pending draws,
      P { State.resetOf lenw with schedule := schedule, pending := pending, draws := draws })
    (hs : ∀ s t, P s → step s = .next t → P t) {s : State} (h : Reachable s) : P s := by
  induction h with
  | reset lenw large schedule pending draws => exact h0 lenw large schedule pending draws
  | step _ moved ih => exact hs _ _ ih moved

end Sys2Proof.Machine
end

