-- ==== Sys2Proof/Tests/Slice0.lean ====
section
/-! SUPPORT. Small tests, each expected result from the vectors of 95_test_vectors.md or worked out from a rule by hand,
and a witness for the hypotheses of each statement that has any. -/

namespace Sys2Proof.Tests

open Sys2Proof.Machine

/-! ## Helpers -/

/-- A block of `LENW` = 4, as the programs of 95_test_vectors.md part 3, that holds the operand `xs`. -/
def holding (xs : List Byte) : State :=
  { State.resetOf 4 with inBuf := (List.range xs.length).zip xs, inlen := xs.length }

/-- The same block with a command running. -/
def running (i : Instr) (xs : List Byte) : State := startCommand (holding xs) (Sys2Proof.encode i)

/-- What a command publishes on an operand: `OUT`, `OUTLEN` and `STATUS`. -/
def publishes (i : Instr) (xs : List Byte) : Option (List Byte × Nat × BitVec 4) :=
  match exec i (holding xs) with
  | .next t => some (t.out, t.outlen, t.status)
  | _ => none

/-- The next state, or the old one where the machine stops. -/
def after (o : Host.Outcome State Fault Refusal) (s : State) : State :=
  match o with
  | .next t => t
  | _ => s

/-- Whether a step has a next state. -/
def goesOn (o : Host.Outcome State Fault Refusal) : Bool :=
  match o with
  | .next _ => true
  | _ => false

/-- Whether a step stops with this fault. -/
def faultsWith (f : Fault) (o : Host.Outcome State Fault Refusal) : Bool :=
  match o with
  | .fault g => g == f
  | _ => false

/-! ## Words, written from R46 -/

theorem test_word_encode : decodeTableWord 8 0b00 = some .encode := by decide
theorem test_word_decode : decodeTableWord 8 0b01 = some .decode := by decide
theorem test_word_tryDecode : decodeTableWord 8 0b10 = some .tryDecode := by decide
theorem test_word_isValid : decodeTableWord 8 0b11 = some .isValid := by decide
/-- R45: bits above `OP` are ignored. -/
theorem test_word_high_bits : decodeTableWord 8 0b11111101 = some .decode := by decide

/-! ## What the ports refuse (R26, R55): one ill-formed term for each check -/

theorem test_win_too_wide : actionFits 4 (.win 16 0#8) = false := by decide
theorem test_wlen_too_wide : actionFits 4 (.wlen 16) = false := by decide
theorem test_rout_too_wide : actionFits 4 (.rout 32) = false := by decide
theorem test_wstatus_too_wide : actionFits 4 (.wstatus 16) = false := by decide
theorem test_woutlen_too_wide : actionFits 4 (.woutlen 16) = false := by decide
theorem test_ports_wdata_too_wide : portsFit 4 (actionPorts (.wlen 16)) = false := by decide
theorem test_ports_index_too_wide : portsFit 4 (actionPorts (.win 16 0#8)) = false := by decide
theorem test_ports_out_index_too_wide : portsFit 4 (actionPorts (.rout 32)) = false := by decide
theorem test_too_wide_faults :
    faultsWith .portTooNarrow (step { State.resetOf 4 with pending := [.act (.wlen 16)] }) = true := by decide

/-! ## Look-up units (V-A1 to V-A8) -/

theorem test_alut_ends : (alut 0#6, alut 25#6, alut 26#6, alut 51#6, alut 52#6, alut 61#6, alut 62#6, alut 63#6) =
    (0x41#8, 0x5A#8, 0x61#8, 0x7A#8, 0x30#8, 0x39#8, 0x2B#8, 0x2F#8) := by decide
theorem test_alut_pinned : [3#6, 5#6, 6#6, 9#6, 16#6, 18#6, 20#6, 27#6, 44#6, 60#6].map alut =
    [0x44#8, 0x46#8, 0x47#8, 0x4A#8, 0x51#8, 0x53#8, 0x55#8, 0x62#8, 0x73#8, 0x38#8] := by decide
theorem test_rlut_neighbours : [0x40#8, 0x5B#8, 0x60#8, 0x7B#8, 0x3A#8, 0x2A#8, 0x2C#8, 0x2D#8, 0x5F#8, 0x3D#8].all
    (fun c => rlut c == (false, 0#6)) = true := by decide
theorem test_rlut_digit_zero : rlut 0x30#8 = (true, 52#6) := by decide
theorem test_reverse_rom : reverseRom[0x53]? = some (true, 18#6) := by decide

/-! ## Units (V-E, V-D) -/

theorem test_symx_bit_fields : (symx 0x80#8 0x40#8 0x20#8 .three, symx 0x03#8 0xF0#8 0x00#8 .three) =
    ((32#6, 4#6, 0#6, 32#6), (0#6, 63#6, 0#6, 0#6)) := by decide
theorem test_symx_short : symx 0x6C#8 0x6F#8 0xFF#8 .two = (27#6, 6#6, 60#6, 0#6) := by decide
theorem test_rcmb_bit_fields : (rcmb 1#6 2#6 3#6 4#6 .four, rcmb 0#6 0#6 63#6 0#6 .four) =
    ([0x04#8, 0x20#8, 0xC4#8], [0x00#8, 0x0F#8, 0xC0#8]) := by decide
theorem test_rcmb_short : (rcmb 40#6 63#6 63#6 63#6 .one, rcmb 25#6 33#6 63#6 63#6 .two,
    rcmb 27#6 6#6 63#6 63#6 .three) = ([0xA0#8], [0x66#8], [0x6C#8, 0x6F#8]) := by decide
/-- V-V8, V-V12, V-V13: a third `PAD` stays; a `PAD` in the middle is no padding. -/
theorem test_pval : (pval [0x41#8, 0x3D#8, 0x3D#8, 0x3D#8], pval [0x51#8, 0x55#8, 0x4A#8, 0x3D#8, 0x44#8]) =
    ((false, 2), (false, 5)) := by decide

/-! ## The commands -/

/-- S2. -/
theorem test_encode_hallo : publishes .encode [0x48#8, 0x61#8, 0x6C#8, 0x6C#8, 0x6F#8] =
    some ([0x53#8, 0x47#8, 0x46#8, 0x73#8, 0x62#8, 0x47#8, 0x38#8, 0x3D#8], 8, 0x6#4) := by decide
/-- V-E22. -/
theorem test_encode_two_pads : publishes .encode [0x66#8] = some ([0x5A#8, 0x67#8, 0x3D#8, 0x3D#8], 4, 0x6#4) := by decide
/-- V-D13: a last group of one character. -/
theorem test_decode_truncated : publishes .decode [0x48#8, 0x61#8, 0x6C#8, 0x6C#8, 0x6F#8, 0x3D#8, 0x3D#8] =
    some ([0x1D#8, 0xA9#8, 0x65#8, 0xA0#8], 4, 0x6#4) := by decide
/-- V-X2: the exception. -/
theorem test_decode_raises : publishes .decode [0x3D#8, 0x3D#8] = some ([], 0, 0xA#4) := by decide
/-- V-D25, "Zh==". -/
theorem test_tryDecode_noncanonical : publishes .tryDecode [0x5A#8, 0x68#8, 0x3D#8, 0x3D#8] =
    some ([0x66#8], 1, 0x6#4) := by decide
/-- V-X3. -/
theorem test_tryDecode_invalid : publishes .tryDecode [0x2E#8, 0x2E#8, 0x2E#8] = some ([], 0, 0x2#4) := by decide
/-- S9. -/
theorem test_isValid_lenient : publishes .isValid [0x48#8, 0x61#8, 0x6C#8, 0x6C#8, 0x6F#8, 0x3D#8, 0x3D#8] =
    some ([], 0, 0x6#4) := by decide
/-- S8. -/
theorem test_isValid_empty : publishes .isValid [] = some ([], 0, 0x2#4) := by decide

/-! ## One step (V-H) -/

/-- V-H2, second half: the word is handed over and runs as the first command after reset. -/
theorem test_first_command : (after (step (State.reset.withFetchWord 8 3)) State.reset).status = 0x2#4 := by decide
/-- V-H3, first half. -/
theorem test_start : (after (step { State.resetOf 4 with pending := [.act (.start 0#2)] }) State.reset).status = 0x1#4 := by
  decide
/-- V-H5: a `WIN` while a command runs, the host moving first, is lost. -/
theorem test_win_lost :
    let s := { running .decode [0x51#8, 0x51#8, 0x3D#8, 0x3D#8] with
      schedule := [true], pending := [.act (.win 0 0x2E#8)] }
    memRead (after (step s) s).inBuf 0 = some 0x51#8 := by decide
/-- V-H5, the completion: "QQ==". -/
theorem test_completion :
    let s := running .decode [0x51#8, 0x51#8, 0x3D#8, 0x3D#8]
    ((after (step s) s).out, (after (step s) s).status) = ([0x41#8], 0x6#4) := by decide
/-- V-H7. -/
theorem test_reset_abandons :
    let s := { running .encode [0x41#8] with schedule := [true], pending := [.reset] }
    (after (step s) s).status = 0x0#4 ∧ (after (step s) s).inBuf = [] := by decide
/-- R40: an operand with an unwritten cell. -/
theorem test_unwritten_faults :
    faultsWith .unwrittenOperandCell (step { running .encode [] with inlen := 1 }) = true := by decide
/-- R26: one edge writes `IN[0]` and starts; the write comes first. -/
theorem test_edge_win_then_start :
    let p : Ports := { actionPorts (.start 1#2) with inWe := true, inIdx := 0, inData := 0x41#8 }
    (clockEdge p (State.resetOf 4)).inBuf = [(0, 0x41#8)] ∧ (clockEdge p (State.resetOf 4)).cmd = 1#2 := by decide
/-- R57: the last `ROUT` of a `COPYBACK` turns into the `LOAD` of what was read. -/
theorem test_copyback_loads :
    let s := { State.resetOf 4 with out := [0x51#8], outlen := 1, pending := [.copyOut 1 []] }
    (after (step s) s).pending = [.act (.win 0 0x51#8), .act (.wlen 1)] := by decide
/-- R57: `decode` of an invalid text reads `ERR` and makes no `READ`. -/
theorem test_no_read_after_error :
    let s := { State.resetOf 4 with status := 0xA#4, pending := [.readUnlessErr] }
    ((after (step s) s).pending, (after (step s) s).returned) = ([], [.reg 2#2 0xA]) := by decide

/-! ## Witnesses: a state and operands that meet the hypotheses of each statement -/

theorem holds_abc : (holding [0x41#8, 0x42#8, 0x43#8]).HoldsOperand [0x41#8, 0x42#8, 0x43#8] :=
  readOperand_eq_some.1 (by decide)
theorem holds_empty : (holding []).HoldsOperand [] := readOperand_eq_some.1 (by decide)
theorem holds_dots : (holding [0x2E#8]).HoldsOperand [0x2E#8] := readOperand_eq_some.1 (by decide)
theorem running_holds : (running .isValid [0x41#8]).HoldsOperand [0x41#8] := readOperand_eq_some.1 (by decide)

theorem witness_StepRunsDecodedCommand :
    (running .tryDecode []).busy = true ∧ (running .tryDecode []).schedule.head? ≠ some true := by decide
theorem witness_FetchedWordRunsNext : decodeTableWord 8 2 = some .tryDecode := by decide
theorem witness_DecoderIsTotal : 2 ≤ 2 ∧ 2 ≤ 8 := by decide
theorem witness_EncodeCompletes :
    (holding [0x41#8, 0x42#8, 0x43#8]).HoldsOperand [0x41#8, 0x42#8, 0x43#8] ∧ (holding []).HoldsOperand [] :=
  ⟨holds_abc, holds_empty⟩
/-- For DECODE, TRYDECODE, ISVALID and the exception: a valid operand and an invalid one. -/
theorem witness_DecodeCompletesOrRaises :
    ((holding [0x41#8, 0x42#8, 0x43#8]).HoldsOperand [0x41#8, 0x42#8, 0x43#8] ∧
      isValidText [0x41#8, 0x42#8, 0x43#8] = true) ∧
    ((holding [0x2E#8]).HoldsOperand [0x2E#8] ∧ isValidText [0x2E#8] = false) ∧
    ((holding []).HoldsOperand [] ∧ isValidText [] = false) :=
  ⟨⟨holds_abc, by decide⟩, ⟨holds_dots, by decide⟩, holds_empty, by decide⟩
theorem witness_TryDecodeCompletes :
    (holding [0x41#8, 0x42#8, 0x43#8]).HoldsOperand [0x41#8, 0x42#8, 0x43#8] ∧
      (holding [0x2E#8]).HoldsOperand [0x2E#8] := ⟨holds_abc, holds_dots⟩
theorem witness_IsValidCompletes : (holding []).HoldsOperand [] ∧ (holding [0x2E#8]).HoldsOperand [0x2E#8] :=
  ⟨holds_empty, holds_dots⟩
theorem witness_OnlyDecodeRaises :
    (holding [0x2E#8]).HoldsOperand [0x2E#8] ∧ (after (exec .decode (holding [0x2E#8])) State.reset).err = true :=
  ⟨holds_dots, by decide⟩
theorem witness_CompletionStep :
    (running .isValid [0x41#8]).busy = true ∧ (running .isValid [0x41#8]).schedule.head? ≠ some true ∧
    (running .isValid [0x41#8]).HoldsOperand [0x41#8] := ⟨by decide, by decide, running_holds⟩
theorem witness_CommandsLeaveOperandUnchanged : ∃ t, exec .decode (holding [0x2E#8]) = .next t := ⟨_, rfl⟩
theorem witness_UnwrittenOperandFaults :
    (∃ k, k < { holding [0x41#8] with inlen := 2 }.inlen ∧
      memRead { holding [0x41#8] with inlen := 2 }.inBuf k = none) ∧
    (∀ k, k < (holding [0x41#8]).inlen → memRead (holding [0x41#8]).inBuf k ≠ none) ∧ State.reset.inlen = 0 :=
  ⟨⟨1, by decide, by decide⟩, by decide, rfl⟩
/-- Two blocks that differ outside the operand. -/
theorem witness_ResultDependsOnOperandOnly :
    let s := holding [0x41#8]
    let s' := { running .decode [0x41#8, 0x42#8] with inlen := 1 }
    s' ≠ s ∧ s'.inlen = s.inlen ∧ (∀ k, k < s.inlen → memRead s'.inBuf k = memRead s.inBuf k) ∧
      ∃ t, exec .encode s = .next t := ⟨by decide, by decide, by decide, _, rfl⟩
theorem witness_StartLatchesCommand : State.reset.busy = false ∧ (running .encode []).busy = true := by decide
/-- The last cell and the largest length of the block. -/
theorem witness_HostWritesTakeEffectWhenIdle :
    let s := { State.resetOf 4 with pending := [.act (.win 15 0xFF#8)] }
    let s' := { State.resetOf 4 with pending := [.act (.wlen 15)] }
    s.busy = false ∧ 15 < 2 ^ s.lenw ∧ s.pending = [.act (.win 15 0xFF#8)] ∧ s'.pending = [.act (.wlen 15)] := by decide
theorem witness_WritesWhileBusyIgnored : (running .decode [0x41#8]).busy = true := by decide
/-- A running block that meets the invariant, by one step from a reset state. -/
theorem running_inv : (running .decode [0x41#8]).Inv where
  lenwLarge := by decide
  inCanonical := by decide
  inWithin := by decide
  inlenWithin := by decide
  outSequence := by decide
  outlenLegal := by decide
  flags := ⟨by decide, by decide, by decide, by decide⟩
theorem witness_ReadsWhileBusy : (running .decode [0x41#8]).Inv ∧ (running .decode [0x41#8]).busy = true :=
  ⟨running_inv, by decide⟩
theorem witness_ReadsHaveNoSideEffect :
    outRead { State.resetOf 4 with out := [0x41#8], outlen := 1 } 0 = some 0x41#8 := by decide
theorem witness_ActionPortsCarryAction : 2 ≤ 2 ∧ actionFits 2 (.start 3#2) = true ∧ actionFits 2 (.rout 7) = true := by
  decide
theorem witness_EdgeOrders :
    let p := { actionPorts (.start 1#2) with inWe := true }
    p.rstN = true ∧ p.inWe = true ∧ p.regWe = true ∧ p.regSel = 0#2 ∧ State.reset.busy = false := by decide
theorem witness_ResetEdge : ({ actionPorts .rstat with rstN := false } : Ports).rstN = false ∧
    ({ actionPorts .rstat with rstN := false } : Ports).regWe = false := by decide
/-- Each move with no command running, and on a host turn while one runs. -/
theorem witness_WaitAndReadExpand :
    let s := { State.resetOf 4 with pending := [.wait] }
    let s' := { running .encode [] with schedule := [true], pending := [.read] }
    (s.busy = false ∧ s.pending = [.wait]) ∧
    (s'.busy = true ∧ s'.schedule.head? = some true ∧ s'.pending = [.read]) := by decide
/-- R57, R131: a `WAIT` polled while a command runs returns `BUSY` alone and is made again. -/
theorem test_wait_polls :
    let s := { running .encode [] with schedule := [true, true], pending := [.wait] }
    ((after (step s) s).pending, (after (step s) s).returned, (after (step s) s).schedule) =
      ([.wait], [.reg 2#2 1], [true]) := by decide
theorem witness_EndedProgramHoldsState : State.reset.ended = true := by decide
theorem witness_ResetStateValues : State.reset = State.resetOf 16 := by decide
theorem witness_EncodedLength : 2 ≤ 2 ∧ [0x41#8, 0x42#8, 0x43#8].length < 2 ^ 2 := by decide
theorem witness_DecodedLength : 1 ≤ effLen [0x41#8] := by decide
theorem witness_EffectiveLength : [0x41#8, 0x3D#8].length < effLen [0x41#8, 0x3D#8] + 2 ∧
    ([0x41#8, 0x3D#8].take (effLen [0x41#8, 0x3D#8])).getLast? = some 0x41#8 := by decide
theorem witness_FirstCharacterTest : isValidText [0x41#8] = true ∧
    isValidText [padCode] ≠ ([padCode].take (effLen [padCode])).all inAlphabet := by decide
/-- `WS` is such a set (R62 (d)); a whitespace-only text, one with whitespace inside, and one that ends in it. -/
theorem witness_WhitespaceRejected :
    (∀ c ∈ Config.whitespace, inAlphabet c = false ∧ c ≠ padCode) ∧
    (∀ c ∈ [0x20#8, 0x0A#8], c ∈ Config.whitespace) ∧
    (∃ c ∈ [0x41#8, 0x20#8, 0x41#8].take (effLen [0x41#8, 0x20#8, 0x41#8]), c ∈ Config.whitespace) := by decide
/-- "Zg" and "Zh": indices 32 and 33; and "ZgA", "ZgB" with 0 and 1 as the third. -/
theorem witness_NoCanonicalFormCheck :
    (∀ c ∈ [0x5A#8, 0x67#8], inAlphabet c = true) ∧
    (inAlphabet 0x67#8 = true ∧ inAlphabet 0x68#8 = true ∧
      (rlut 0x67#8).2.extractLsb' 4 2 = (rlut 0x68#8).2.extractLsb' 4 2) ∧
    (inAlphabet 0x41#8 = true ∧ inAlphabet 0x42#8 = true ∧
      (rlut 0x41#8).2.extractLsb' 2 4 = (rlut 0x42#8).2.extractLsb' 2 4) ∧ ([] : List Byte).length % 4 = 0 := by decide
theorem witness_ValidTextLookupsHit : isValidText [0x41#8, 0x3D#8] = true ∧
    0x41#8 ∈ [0x41#8, 0x3D#8].take (effLen [0x41#8, 0x3D#8]) ∧ inAlphabet 0x2E#8 = false := by decide
theorem witness_ReverseLookup : ∀ k : Sym, alut k ≠ 0x2E#8 := by decide
theorem witness_DecodeInvertsEncode : encodeMsg [0x41#8] = encodeMsg [0x41#8] ∧ [0x41#8] ≠ [] := by decide
theorem witness_BlockRoundTrip :
    (holding [0x66#8]).HoldsOperand [0x66#8] ∧
    (holding [0x5A#8, 0x67#8, 0x3D#8, 0x3D#8]).HoldsOperand
      (after (exec .encode (holding [0x66#8])) State.reset).out :=
  ⟨readOperand_eq_some.1 (by decide), readOperand_eq_some.1 (by decide)⟩
theorem witness_StepKeepsInvariant : (running .decode [0x41#8]).Inv ∧ ∃ t, step (running .decode [0x41#8]) = .next t :=
  ⟨running_inv, _, rfl⟩
theorem witness_ResetMeetsInvariant : 2 ≤ 2 := by decide
theorem witness_ReachableStates : Reachable State.reset ∧ State.reset.status = 0b0000#4 ∧
    goesOn (step State.reset) = true := ⟨.reset 16 (by decide) [] [] 0, by decide, by decide⟩
/-- The step of the flags from a failed DECODE, and a START from the reset flags. -/
theorem witness_FlagRules :
    let s := { State.resetOf 4 with status := 0xA#4, cmd := 1#2 }
    let s' := { State.resetOf 4 with pending := [.edge (actionPorts (.start 3#2))] }
    (s.FlagRules ∧ goesOn (step s) = true) ∧
    (s'.status = 0b0000#4 ∧ goesOn (step s') = true ∧ (after (step s') s').status = 0b0001#4) :=
  ⟨⟨⟨by decide, by decide, by decide, by decide⟩, by decide⟩, by decide⟩
/-- After a failed DECODE, for each clause a next move: a START as an edge, a reset, and a `WLEN`. -/
theorem witness_ResultLasts :
    let s := { State.resetOf 4 with status := 0xA#4, cmd := 1#2 }
    let starting := { s with pending := [.edge (actionPorts (.start 2#2))] }
    let resetting := { s with pending := [.reset] }
    let writing := { s with pending := [.act (.wlen 3)] }
    (starting.busy = false ∧ goesOn (step starting) = true ∧ StartMove 2#2 (.edge (actionPorts (.start 2#2)))) ∧
    (resetting.busy = false ∧ goesOn (step resetting) = true ∧ ResetMove .reset) ∧
    (writing.busy = false ∧ goesOn (step writing) = true ∧
      ¬∃ m ms, writing.pending = m :: ms ∧ (ResetMove m ∨ ∃ op, StartMove op m)) := by
  refine ⟨⟨by decide, by decide, .inr ⟨_, rfl, rfl, rfl, rfl, by decide⟩⟩, ⟨by decide, by decide, .inl rfl⟩,
    by decide, by decide, ?_⟩
  rintro ⟨m, ms, h, hm⟩
  cases h
  rcases hm with (h | ⟨_, h, _⟩) | ⟨_, h | ⟨_, h, _⟩⟩ <;> cases h
theorem witness_OperandFixedWhileBusy :
    let s := { running .decode [0x41#8] with schedule := [true], pending := [.reset] }
    s.busy = true ∧ goesOn (step s) = true ∧ (after (step s) s).inBuf ≠ s.inBuf := by decide
theorem witness_InputCellsChange :
    let s := { State.resetOf 4 with pending := [.act (.win 3 0x41#8)] }
    goesOn (step s) = true ∧ memRead (after (step s) s).inBuf 3 ≠ memRead s.inBuf 3 := by decide
theorem witness_StartedCommandCompletes :
    let s := { running .isValid [0x41#8] with schedule := [true, true], pending := [.act (.win 0 0x2E#8), .wait] }
    s.busy = true ∧ s.HoldsOperand [0x41#8] ∧ ∀ m ∈ s.pending, plainMove s.lenw m = true :=
  ⟨by decide, readOperand_eq_some.1 (by decide), by decide⟩
theorem witness_StepsStop :
    let s := { State.resetOf 4 with pending := [.act (.rout 32)] }
    faultsWith .portTooNarrow (step s) = true ∧
    faultsWith .unwrittenOperandCell (step { running .encode [] with inlen := 1 }) = true := by decide
theorem witness_StatusPinsCopyFlags :
    let s := { State.resetOf 4 with status := 0xA#4, cmd := 1#2 }
    s.Inv ∧ errPin s = true :=
  ⟨⟨by decide, by decide, by decide, by decide, by decide, by decide, ⟨by decide, by decide, by decide, by decide⟩⟩,
    by decide⟩

end Sys2Proof.Tests
end

section
/-! The state of 10_state.md: the laws of the result's length, of a command on its operand, of the flags and of the
result under the host's moves, and the statements of that file settled from them. -/

namespace Sys2Proof.Machine

/-! ## The length of a result -/

/-- An encoded message has four characters for each group of three bytes, the last one possibly short (R76). -/
theorem encodeMsg_length : ∀ B : List Byte, (encodeMsg B).length = 4 * ((B.length + 2) / 3)
  | [] => rfl
  | [_] => by simp [encodeMsg]
  | [_, _] => by simp [encodeMsg]
  | _ :: _ :: _ :: B => by
    have ih := encodeMsg_length B
    simp only [encodeMsg, List.length_append, encGroup_length, List.length_cons, ih]
    omega

/-- A decode group never has more bytes than characters, so a text is not longer decoded. -/
theorem decodeGroups_length_le : ∀ T : List Byte, (decodeGroups T).length ≤ T.length
  | [] => Nat.le_refl _
  | [_] => by simp [decodeGroups, decGroup, rcmb]
  | [_, _] => by simp [decodeGroups, decGroup, rcmb]
  | [_, _, _] => by simp [decodeGroups, decGroup, rcmb]
  | _ :: _ :: _ :: _ :: T => by
    have ih := decodeGroups_length_le T
    simp only [decodeGroups, decGroup, rcmb, List.length_append, List.length_cons, List.length_nil]
    omega

theorem decodeRaw_length_le (T : List Byte) : (decodeRaw T).length ≤ T.length :=
  (decodeGroups_length_le _).trans (List.length_take_le' _ _)

/-- A command's result is the encoded message, or is not longer than the operand. -/
theorem resultOf_length_le (i : Instr) (X : List Byte) :
    (resultOf i X).length ≤ max (4 * ((X.length + 2) / 3)) X.length := by
  have decoded : (if isValidText X then decodeRaw X else []).length ≤ X.length := by
    split
    exacts [decodeRaw_length_le X, Nat.zero_le _]
  cases i with
  | encode => exact (encodeMsg_length X).le.trans (Nat.le_max_left _ _)
  | decode => exact decoded.trans (Nat.le_max_right _ _)
  | tryDecode => exact decoded.trans (Nat.le_max_right _ _)
  | isValid => exact Nat.zero_le _

/-- The result of an operand that `INLEN` can count has a legal `OUTLEN` (R15). -/
theorem resultOf_length_le_maxOutlen {lenw : Nat} {X : List Byte} (h : X.length < 2 ^ lenw) (i : Instr) :
    (resultOf i X).length ≤ maxOutlen lenw := by
  have := resultOf_length_le i X
  unfold maxOutlen
  omega

/-! ## The flags -/

/-- A START leaves `BUSY` alone set. -/
theorem flags_of_running {s : State} (h : s.status = statusRunning) :
    s.busy = true ∧ s.done = false ∧ s.ok = false ∧ s.err = false :=
  ⟨busy_of_status h, done_of_status h, ok_of_status h, err_of_status h⟩

/-- The reset value of `STATUS` has all flags 0. -/
theorem flags_of_cleared {s : State} (h : s.status = 0#4) :
    s.busy = false ∧ s.done = false ∧ s.ok = false ∧ s.err = false := by
  rw [← statusWord_none] at h
  exact ⟨busy_of_status h, done_of_status h, ok_of_status h, err_of_status h⟩

/-- Only DECODE of an invalid text raises, and then there is no result and `OK` is 0 (R110). -/
theorem eq_decode_of_errOf {i : Instr} {X : List Byte} (h : errOf i X = true) :
    i = .decode ∧ okOf i X = false ∧ resultOf i X = [] := by
  cases i with
  | decode =>
    have invalid : isValidText X = false := by simpa [errOf] using h
    exact ⟨rfl, invalid, by simp [resultOf, invalid]⟩
  | encode => cases h
  | tryDecode => cases h
  | isValid => cases h

/-- The relations of R18 depend on `STATUS`, `OUTLEN` and `CMD` alone. -/
theorem FlagRules_congr {s t : State} (hst : t.status = s.status) (hlen : t.outlen = s.outlen) (hcmd : t.cmd = s.cmd)
    (h : s.FlagRules) : t.FlagRules := by
  obtain ⟨hb, hd, ho, he⟩ := flags_of_status hst
  obtain ⟨notBoth, errMeans, okMeans, busyMeans⟩ := h
  constructor <;> simpa only [hb, hd, ho, he, hlen, hcmd]

/-- A running command with no result meets R18. -/
theorem FlagRules_of_running {s : State} (h : s.status = statusRunning) (hlen : s.outlen = 0) : s.FlagRules := by
  obtain ⟨hb, hd, ho, he⟩ := flags_of_running h
  constructor <;> simp [hb, hd, ho, he, hlen]

/-- No flag set meets R18. -/
theorem FlagRules_of_cleared {s : State} (h : s.status = 0#4) : s.FlagRules := by
  obtain ⟨hb, hd, ho, he⟩ := flags_of_cleared h
  constructor <;> simp [hb, hd, ho, he]

/-- What a completion step publishes meets R18, from any state. -/
theorem FlagRules_publish_resultOf (s : State) (X : List Byte) :
    (publish s (resultOf (decodeCommand s.cmd) X) (okOf (decodeCommand s.cmd) X)
      (errOf (decodeCommand s.cmd) X)).FlagRules where
  notBoth := by simp
  errMeans := by
    intro h
    rw [publish_err] at h
    obtain ⟨hi, hok, hres⟩ := eq_decode_of_errOf h
    exact ⟨publish_done .., by rw [publish_ok, hok], by rw [publish_outlen, hres, List.length_nil], hi⟩
  okMeans := fun _ => publish_done ..
  busyMeans := by simp

theorem hostAct_keeps_FlagRules {a : HostAction} {s : State} (h : s.FlagRules) : (hostAct a s).FlagRules := by
  rcases hostAct_cases a s with same | ⟨_, ⟨i, v, _, win⟩ | ⟨n, _, wlen⟩ | ⟨op, _, start⟩⟩
  · exact FlagRules_of_sameBlock same h
  · rw [win]; exact FlagRules_congr (s := s) rfl rfl rfl h
  · rw [wlen]; exact FlagRules_congr (s := s) rfl rfl rfl h
  · rw [start]; exact FlagRules_of_running rfl rfl

/-- Every step keeps the relations of R18. -/
theorem step_keeps_FlagRules {s t : State} (h : s.FlagRules) (hstep : step s = .next t) : t.FlagRules :=
  step_keep (fun _ _ => FlagRules_of_sameBlock) (fun _ _ _ => hostAct_keeps_FlagRules)
    (fun s _ => FlagRules_of_cleared (resetBlock_status s)) (fun s X _ _ _ => FlagRules_publish_resultOf s X) h hstep

/-! ## The invariant -/

/-- The reset state meets the invariant for every legal `LENW`. -/
theorem resetOf_inv {lenw : Nat} (large : 2 ≤ lenw) : (State.resetOf lenw).Inv where
  lenwLarge := large
  inCanonical := rfl
  inWithin := by simp [State.resetOf]
  inlenWithin := Nat.two_pow_pos lenw
  outSequence := rfl
  outlenLegal := Nat.zero_le _
  flags := FlagRules_of_cleared rfl

/-- Resetting the block gives the block of the reset state, whatever it was. -/
theorem resetOf_sameBlock_resetBlock (s : State) : (State.resetOf s.lenw).SameBlock (resetBlock s) :=
  ⟨rfl, rfl, rfl, rfl, rfl, rfl, rfl⟩

theorem resetBlock_keeps_Inv {s : State} (h : s.Inv) : (resetBlock s).Inv :=
  Inv_of_sameBlock (resetOf_sameBlock_resetBlock s) (resetOf_inv h.lenwLarge)

/-- A host action that the ports can carry keeps the invariant. -/
theorem hostAct_keeps_Inv {a : HostAction} {s : State} (fits : actionFits s.lenw a = true) (h : s.Inv) :
    (hostAct a s).Inv := by
  have flags : (hostAct a s).FlagRules := hostAct_keeps_FlagRules h.flags
  rcases hostAct_cases a s with same | ⟨_, ⟨i, v, rfl, win⟩ | ⟨n, rfl, wlen⟩ | ⟨op, _, start⟩⟩
  · exact Inv_of_sameBlock same h
  · rw [win] at flags ⊢
    exact { h with
      inCanonical := memWrite_wf h.inCanonical i v
      inWithin := memWrite_within h.inWithin (of_decide_eq_true fits) v
      flags := flags }
  · rw [wlen] at flags ⊢
    exact { h with
      inlenWithin := of_decide_eq_true fits
      flags := flags }
  · rw [start] at flags ⊢
    exact { h with
      outSequence := rfl
      outlenLegal := Nat.zero_le _
      flags := flags }

/-- The completion step keeps the invariant: the result of an operand of `INLEN` cells has a legal length. -/
theorem publish_resultOf_keeps_Inv {s : State} {X : List Byte} (hX : s.HoldsOperand X) (h : s.Inv) :
    (publish s (resultOf (decodeCommand s.cmd) X) (okOf (decodeCommand s.cmd) X)
      (errOf (decodeCommand s.cmd) X)).Inv :=
  { h with
    outSequence := rfl
    outlenLegal := resultOf_length_le_maxOutlen (hX.1 ▸ h.inlenWithin) _
    flags := FlagRules_publish_resultOf s X }

theorem step_keeps_Inv {s t : State} (h : s.Inv) (hstep : step s = .next t) : t.Inv :=
  step_keep (fun _ _ => Inv_of_sameBlock) (fun _ _ => hostAct_keeps_Inv) (fun _ => resetBlock_keeps_Inv)
    (fun _ _ _ => publish_resultOf_keeps_Inv) h hstep

/-- No step changes `LENW`. -/
theorem step_lenw {s t : State} (hstep : step s = .next t) : t.lenw = s.lenw :=
  step_keep (P := fun u => u.lenw = s.lenw) (fun _ _ same hu => same.1.trans hu)
    (fun a u _ hu => (hostAct_lenw a u).trans hu) (fun _ hu => hu) (fun _ _ _ _ hu => hu) rfl hstep

/-- Settles O44: the invariant goes through the rule `step_keep`, and so does `LENW` as it is in the state before. -/
theorem stepKeepsInvariant : Obligations.StepKeepsInvariant :=
  fun _ _ h hstep => ⟨step_keeps_Inv h hstep, step_lenw hstep⟩

/-- Settles O45: the invariant speaks of the block alone, which is that of the reset state. -/
theorem resetMeetsInvariant : Obligations.ResetMeetsInvariant :=
  ⟨resetOf_inv (by decide), fun lenw _ _ _ large =>
    Inv_of_sameBlock (s := State.resetOf lenw) ⟨rfl, rfl, rfl, rfl, rfl, rfl, rfl⟩ (resetOf_inv large)⟩

/-! ## The result under the host's moves -/

/-- An action that is made is within the ports' range. -/
theorem hostActChecked_next {a : HostAction} {s t : State} (h : hostActChecked a s = .next t) :
    actionFits s.lenw a = true ∧ t = hostAct a s := by
  unfold hostActChecked at h
  split at h
  · cases h
    exact ⟨‹_›, rfl⟩
  · cases h

/-- An edge that is made is within the ports' range. -/
theorem hostMove_edge_next {p : Ports} {s t : State} (h : hostMove (.edge p) s = .next t) :
    portsFit s.lenw p = true ∧ t = clockEdge p s := by
  simp only [hostMove] at h
  split at h
  · cases h
    exact ⟨‹_›, rfl⟩
  · cases h

/-- What a move made with no command running does to the result and the flags (R133): a START clears the result and
sets `BUSY`, a reset clears both, every other move leaves both. -/
def ResultAfterMove (m : HostMove) (s t : State) : Prop :=
  (∃ op, StartMove op m ∧ t.out = [] ∧ t.outlen = 0 ∧ t.status = statusRunning ∧ t.cmd = op) ∨
  (ResetMove m ∧ t.out = [] ∧ t.outlen = 0 ∧ t.status = 0#4) ∨
  (t.out = s.out ∧ t.outlen = s.outlen ∧ t.status = s.status)

theorem clockEdge_resultAfterMove (p : Ports) {s : State} (idle : s.busy = false) :
    ResultAfterMove (.edge p) s (clockEdge p s) := by
  cases hr : p.rstN with
  | false =>
    obtain ⟨_, _, _, hout, hlen, _, hst⟩ := clockEdge_of_reset hr s
    exact .inr (.inl ⟨.inr ⟨p, rfl, hr⟩, hout, hlen, hst⟩)
  | true =>
    by_cases hstart : p.regWe = true ∧ p.regSel = 0#2
    · obtain ⟨hwe, hsel⟩ := hstart
      obtain ⟨hout, hlen, hst, hcmd⟩ := clockEdge_start hr hwe hsel idle
      exact .inl ⟨_, .inr ⟨p, rfl, hr, hwe, hsel, rfl⟩, hout, hlen, hst, hcmd⟩
    · exact .inr (.inr (clockEdge_result hr (fun hwe hsel => hstart ⟨hwe, hsel⟩) s))

theorem hostAct_resultAfterMove (a : HostAction) {s : State} (idle : s.busy = false) :
    ResultAfterMove (.act a) s (hostAct a s) := by
  by_cases hstart : ∃ op, a = .start op
  · obtain ⟨op, rfl⟩ := hstart
    refine .inl ⟨op, .inl rfl, ?_⟩
    rw [hostAct, startCommand_of_idle idle]
    exact ⟨rfl, rfl, rfl, rfl⟩
  · exact .inr (.inr (hostAct_result (fun op h => hstart ⟨op, h⟩) s))

/-- The result after a move that only adds moves to the program and then reads. -/
theorem resultAfterMove_of_read {m : HostMove} {a : HostAction} {s u : State} (same : s.SameBlock u)
    (read : ∀ op, a ≠ .start op) : ResultAfterMove m s (hostAct a u) := by
  obtain ⟨_, _, _, hout, hlen, _, hst⟩ := same
  obtain ⟨hout', hlen', hst'⟩ := hostAct_result read u
  exact .inr (.inr ⟨hout'.trans hout, hlen'.trans hlen, hst'.trans hst⟩)

/-- Adding moves under a condition changes nothing of the block. -/
theorem ite_pushMoves_sameBlock (c : Bool) (ms : List HostMove) (s : State) :
    s.SameBlock (if c then s else pushMoves ms s) := by
  split
  exacts [SameBlock_refl s, pushMoves_sameBlock ms s]

/-- Every move made with no command running has one of the three effects on the result. -/
theorem hostMove_resultAfterMove {m : HostMove} {s t : State} (idle : s.busy = false)
    (h : hostMove m s = .next t) : ResultAfterMove m s t := by
  cases m with
  | act a =>
    obtain ⟨_, rfl⟩ := hostActChecked_next h
    exact hostAct_resultAfterMove a idle
  | edge p =>
    obtain ⟨_, rfl⟩ := hostMove_edge_next h
    exact clockEdge_resultAfterMove p idle
  | reset =>
    cases h
    exact .inr (.inl ⟨.inl rfl, rfl, rfl, rfl⟩)
  | wait =>
    cases h
    exact resultAfterMove_of_read (ite_pushMoves_sameBlock _ _ s) (fun _ => HostAction.noConfusion)
  | read =>
    cases h
    exact resultAfterMove_of_read (pushMoves_sameBlock _ s) (fun _ => HostAction.noConfusion)
  | readUnlessErr =>
    cases h
    exact resultAfterMove_of_read (ite_pushMoves_sameBlock _ _ s) (fun _ => HostAction.noConfusion)
  | copyback =>
    cases h
    exact resultAfterMove_of_read (pushMoves_sameBlock _ s) (fun _ => HostAction.noConfusion)
  | copyOut n ys =>
    obtain ⟨_, rfl⟩ := hostActChecked_next h
    exact resultAfterMove_of_read (pushMoves_sameBlock _ s) (fun _ => HostAction.noConfusion)

/-- With no command running a step is the host's next move, or nothing when it has none (R122). -/
theorem step_of_idle {s t : State} (idle : s.busy = false) (h : step s = .next t) :
    (s.pending = [] ∧ t = s) ∨
    ∃ m ms, s.pending = m :: ms ∧ hostMove m { s with pending := ms } = .next t := by
  have turn : hostTurn s = .next t := by simpa [step, idle] using h
  unfold hostTurn at turn
  split at turn
  · cases turn
    exact .inl ⟨‹_›, rfl⟩
  · exact .inr ⟨_, _, ‹_›, turn⟩

/-- From all flags 0 a step leaves them 0 but for a START of the host's, which sets `BUSY` alone. -/
theorem step_status_of_cleared {s t : State} (cleared : s.status = 0#4) (h : step s = .next t) :
    t.status = 0#4 ∨ (t.status = statusRunning ∧ ∃ m ms op, s.pending = m :: ms ∧ StartMove op m) := by
  have idle : s.busy = false := (flags_of_cleared cleared).1
  rcases step_of_idle idle h with ⟨_, rfl⟩ | ⟨m, ms, hm, hmove⟩
  · exact .inl cleared
  · have idle' : ({ s with pending := ms } : State).busy = false := idle
    rcases hostMove_resultAfterMove idle' hmove with ⟨op, start, _, _, hst, _⟩ | ⟨_, _, _, hst⟩ | ⟨_, _, hst⟩
    · exact .inr ⟨hst, m, ms, op, hm, start⟩
    · exact .inl hst
    · exact .inl (hst.trans cleared)

theorem reachable_FlagRules {s : State} (h : Reachable s) : s.FlagRules :=
  reachable_induction (fun _ _ _ _ _ => FlagRules_of_cleared rfl) (fun _ _ => step_keeps_FlagRules) h

/-- Settles O46: `FlagRules` goes through the rule `step_keep` and the induction over reachable states; the last clause
is the effect of the host's one move on the result. -/
theorem reachableStatesObeyFlagRules : Obligations.ReachableStatesObeyFlagRules := by
  refine ⟨fun _ _ => step_keeps_FlagRules, fun s hs => ?_, fun s t cleared h => ?_⟩
  · obtain ⟨notBoth, errMeans, okMeans, busyMeans⟩ := reachable_FlagRules hs
    exact ⟨notBoth, errMeans, okMeans, busyMeans⟩
  · rw [← statusRunning_eq]
    exact step_status_of_cleared cleared h

/-! ## A command on its operand -/

/-- A command with its operand written publishes the result of that operand (R21). -/
theorem exec_of_holds {s : State} {X : List Byte} (h : s.HoldsOperand X) (i : Instr) :
    exec i s = .next (publish s (resultOf i X) (okOf i X) (errOf i X)) := by
  rw [exec_eq_onOperand, onOperand_of_holds h]

/-- A command with an unwritten operand cell faults (R132). -/
theorem exec_of_unwritten {s : State} (h : ¬s.OperandWritten) (i : Instr) :
    exec i s = .fault .unwrittenOperandCell := by
  rw [exec_eq_onOperand, onOperand_of_unwritten h]

/-- While a command runs, a step that the schedule does not give to the host is the completion step. -/
theorem step_of_engine {s : State} (busy : s.busy = true) (turn : s.schedule.head? ≠ some true) :
    step s = exec (decodeCommand s.cmd) (advance s) := by
  have engine : s.schedule.headD false = false := by
    rw [List.headD_eq_head?_getD]
    cases hh : s.schedule.head? with
    | none => rfl
    | some b =>
      cases b with
      | false => rfl
      | true => exact absurd hh turn
  rcases step_cases s with ⟨_, _, h⟩ | ⟨_, host, _⟩ | ⟨idle, _⟩
  · exact h
  · exact absurd (engine.symm.trans host) Bool.false_ne_true
  · exact absurd (idle.symm.trans busy) Bool.false_ne_true

/-- What a completion step publishes is read back from `OUT` cell by cell, and no further cell holds a value. -/
@[simp] theorem outRead_publish (s : State) (R : List Byte) (o e : Bool) (a : Nat) :
    outRead (publish s R o e) a = R[a]? := by
  unfold outRead
  split
  · rfl
  · exact (List.getElem?_eq_none (Nat.le_of_not_lt ‹_›)).symm

/-- The flags of a completed command, as a word (R17, R21). -/
theorem statusCompleted_eq : ∀ o e : Bool,
    statusCompleted o e = BitVec.ofBool e ++ BitVec.ofBool o ++ 0b10#2 := by decide

/-- The operand depends on `INLEN` and the cells below it alone. -/
theorem HoldsOperand_iff_of_cells {s s' : State} (hlen : s'.inlen = s.inlen)
    (cells : ∀ k, k < s.inlen → memRead s'.inBuf k = memRead s.inBuf k) (X : List Byte) :
    s'.HoldsOperand X ↔ s.HoldsOperand X := by
  unfold State.HoldsOperand
  rw [hlen]
  exact and_congr_right fun _ => forall₂_congr fun k hk => by rw [cells k hk]

/-- Settles O9: the engine's step is the completion step, on an operand that using the schedule leaves. -/
theorem completionStepPublishesCommandResult : Obligations.CompletionStepPublishesCommandResult := by
  intro s X busy turn hX
  have hX' : (advance s).HoldsOperand X := (HoldsOperand_congr rfl rfl).2 hX
  exact ⟨_, (step_of_engine busy turn).trans (exec_of_holds hX' _), rfl, rfl, publish_ok .., publish_err ..,
    publish_done .., publish_busy .., rfl, rfl, rfl⟩

/-- Settles O11: a command that completes has published the result of its operand, and that is all. -/
theorem commandsLeaveOperandUnchanged : Obligations.CommandsLeaveOperandUnchanged := by
  intro i s t h
  obtain ⟨X, hX, rfl⟩ := exec_next h
  exact ⟨⟨rfl, rfl, rfl, rfl, rfl⟩, rfl, rfl, fun _ => rfl, X, hX, outRead_publish s _ _ _, statusCompleted_eq _ _⟩

/-- Settles O13: the two states hold the same operands, and so publish the same result or both fault. -/
theorem resultDependsOnOperandOnly : Obligations.ResultDependsOnOperandOnly := by
  intro i s s' hlen cells
  have operand := HoldsOperand_iff_of_cells hlen cells
  rcases exec_cases i s with ⟨X, hX, h⟩ | ⟨unwritten, h⟩
  · have h' := exec_of_holds ((operand X).2 hX) i
    rw [h, h']
    refine ⟨fun r => ⟨nofun, nofun⟩, fun t ht => ?_⟩
    cases ht
    exact ⟨_, rfl, rfl, rfl, rfl⟩
  · have unwritten' : ¬s'.OperandWritten := by
      rw [operandWritten_iff] at unwritten ⊢
      simpa only [operand] using unwritten
    rw [h, exec_of_unwritten unwritten' i]
    exact ⟨fun r => Iff.rfl, nofun⟩

/-- Settles O3: the engine's step, with the entry of the schedule it uses. -/
theorem stepRunsDecodedCommand : Obligations.StepRunsDecodedCommand :=
  fun _ => step_of_engine

/-- A word that is handed over runs with `BUSY` set. -/
theorem withFetchWord_busy (s : State) (nbits w : Nat) : (s.withFetchWord nbits w).busy = true :=
  (flags_of_running rfl).1

/-- Settles O4: the handed word leaves `BUSY` set and the engine's entry first in the schedule. -/
theorem fetchedWordRunsNext : Obligations.FetchedWordRunsNext := by
  intro s nbits w i decoded
  have command : decodeCommand (s.withFetchWord nbits w).cmd = i := Option.some.inj decoded
  have turn : (s.withFetchWord nbits w).schedule.head? ≠ some true := by simp [State.withFetchWord]
  rw [step_of_engine (withFetchWord_busy s nbits w) turn, command, ← statusRunning_eq]
  rfl

/-! ## START, reset, and the order within one edge -/

/-- Settles O14: the two cases of `startCommand`, with `BUSY` alone set in the latched status. -/
theorem startLatchesCommand : Obligations.StartLatchesCommand := by
  intro s op
  rw [← statusRunning_eq]
  exact ⟨fun idle => startCommand_of_idle idle op, fun busy => startCommand_of_busy busy op⟩

/-- Settles O23: the model's own reset state is the one of its `LENW`. -/
theorem resetStateValues : Obligations.ResetStateValues := by
  intro s hs
  have reset : ∃ lenw, s = State.resetOf lenw := hs.elim (fun h => ⟨_, h⟩) id
  obtain ⟨lenw, rfl⟩ := reset
  exact ⟨memRead_nil, rfl, rfl, rfl, rfl, flags_of_cleared rfl⟩

/-- A register write returns nothing to the host. -/
theorem hostAct_regWriteAction_returned (sel : BitVec 2) (w : Nat) (s : State) :
    (hostAct (regWriteAction sel w) s).returned = s.returned := by
  unfold regWriteAction
  split_ifs
  · exact startCommand_returned s _
  · simp only [hostAct]; split <;> rfl
  · rfl
  · rfl

/-- A write of `IN` returns nothing to the host. -/
theorem hostAct_win_returned (i : Nat) (v : Byte) (s : State) : (hostAct (.win i v) s).returned = s.returned := by
  simp only [hostAct]; split <;> rfl

/-- The writes of an edge return nothing to the host. -/
theorem portWrites_returned (p : Ports) (s : State) : (hostActs (portWrites p) s).returned = s.returned := by
  unfold portWrites
  split_ifs
  · exact (hostAct_regWriteAction_returned _ _ _).trans (hostAct_win_returned _ _ s)
  · exact hostAct_win_returned _ _ s
  · exact hostAct_regWriteAction_returned _ _ s
  · rfl

/-- The writes of an edge that writes `IN` and register 0 are the `WIN` and then the START. -/
theorem portWrites_win_start {p : Ports} (hin : p.inWe = true) (hwe : p.regWe = true) (hsel : p.regSel = 0#2) :
    portWrites p = [.win p.inIdx p.inData, .start (commandWord p.regWdata)] := by
  simp [portWrites, hin, hwe, regWriteAction, hsel]

/-- R55: a `WIN` with no command running writes its cell and nothing else. -/
theorem hostAct_win_of_idle {s : State} (idle : s.busy = false) (i : Nat) (v : Byte) :
    hostAct (.win i v) s = { s with inBuf := memWrite s.inBuf i v } := by
  simp [hostAct, idle]

/-- An edge that writes `IN` beside a START has the written cell in the operand (R26). -/
theorem clockEdge_win_start_inBuf {p : Ports} (hr : p.rstN = true) (hin : p.inWe = true) (hwe : p.regWe = true)
    (hsel : p.regSel = 0#2) {s : State} (idle : s.busy = false) :
    (clockEdge p s).inBuf = memWrite s.inBuf p.inIdx p.inData := by
  obtain ⟨_, hbuf, _, _, _, _, hst⟩ := portReads_sameBlock p s
  have idle' := (flags_of_status hst).1.trans idle
  rw [clockEdge_of_running hr, portWrites_win_start hin hwe hsel, ← hbuf]
  calc (startCommand (hostAct (.win p.inIdx p.inData) (hostActs (portReads p) s)) (commandWord p.regWdata)).inBuf
      = (hostAct (.win p.inIdx p.inData) (hostActs (portReads p) s)).inBuf := startCommand_inBuf ..
    _ = memWrite (hostActs (portReads p) s).inBuf p.inIdx p.inData := by rw [hostAct_win_of_idle idle']

/-- Settles O20: the reads come first and change nothing of the block; of the writes, `IN` comes before the START. -/
theorem edgeOrdersReadsThenWinThenStart : Obligations.EdgeOrdersReadsThenWinThenStart := by
  intro s p hr
  refine ⟨?_, portReads_sameBlock p s, fun hin hwe hsel idle => ?_⟩
  · rw [clockEdge_of_running hr, portWrites_returned]
  · obtain ⟨_, _, hst, hcmd⟩ := clockEdge_start hr hwe hsel idle
    exact ⟨clockEdge_win_start_inBuf hr hin hwe hsel idle, hcmd, busy_of_status hst⟩

end Sys2Proof.Machine
end

section
/-! The buffers of 20_memory.md: what a step can do to the block, said once, and the statements of that file settled
from it. -/

namespace Sys2Proof.Machine

/-! ## What the host's reads return -/

/-- What a read of `OUT` finds depends on the block alone. -/
theorem outRead_of_sameBlock {s t : State} (same : s.SameBlock t) (i : Nat) : outRead t i = outRead s i := by
  obtain ⟨_, _, _, hout, hlen, _, _⟩ := same
  simp only [outRead, hout, hlen]

/-- What a register read returns depends on the block alone. -/
theorem regRead_of_sameBlock {s t : State} (same : s.SameBlock t) (sel : BitVec 2) : regRead t sel = regRead s sel := by
  obtain ⟨_, _, hinlen, _, hlen, hcmd, hst⟩ := same
  simp only [regRead, hinlen, hlen, hcmd, hst]

/-- R41: a cell that holds a value returns it. -/
theorem outData_of_some {s : State} {i : Nat} {v : Byte} (held : outRead s i = some v) : outData s i = v := by
  simp only [outData, held]

/-- Settles O18: a read changes the record of reads alone, and what it returns depends on the block alone. -/
theorem readsHaveNoSideEffect : Obligations.ReadsHaveNoSideEffect := by
  intro s i
  refine ⟨returnReg_sameBlock s _, returnReg_sameBlock s _, returnCell_sameBlock s i, returnReg_sameBlock s _,
    returnReg_sameBlock s _, fun v held => ?_, fun sel => regRead_of_sameBlock (returnReg_sameBlock s sel) sel⟩
  have again : outRead (returnCell s i) i = some v :=
    (outRead_of_sameBlock (returnCell_sameBlock s i) i).trans held
  calc (returnCell (returnCell s i) i).returned
      = .cell i (outData (returnCell s i) i) :: .cell i (outData s i) :: s.returned := rfl
    _ = .cell i v :: .cell i v :: s.returned := by rw [outData_of_some again, outData_of_some held]

/-! ## What a step can do to the block -/

/-- The actions of a move through which it can change the block other than by a reset: the action itself, and the writes
of an edge with `rst_n = 1`. Every pseudo-instruction only reads (R57). -/
def moveWrites : HostMove → List HostAction
  | .act a => [a]
  | .edge p => if p.rstN then portWrites p else []
  | .reset => []
  | .wait => []
  | .read => []
  | .readUnlessErr => []
  | .copyback => []
  | .copyOut _ _ => []

/-- What a move of the host does to the block: its writes, on the block as it stands, or a reset. -/
def MoveEffect (m : HostMove) (s t : State) : Prop :=
  (∃ u, s.SameBlock u ∧ t = hostActs (moveWrites m) u) ∨ (ResetMove m ∧ (State.resetOf s.lenw).SameBlock t)

/-- What a move does to the block depends on the block alone. -/
theorem MoveEffect_of_sameBlock {m : HostMove} {s s' t : State} (same : s.SameBlock s') (h : MoveEffect m s' t) :
    MoveEffect m s t := by
  rcases h with ⟨u, hu, rfl⟩ | ⟨reset, ht⟩
  · exact .inl ⟨u, SameBlock_trans same hu, rfl⟩
  · exact .inr ⟨reset, same.1 ▸ ht⟩

/-- A move without writes that leaves the block has that effect. -/
theorem moveEffect_of_reads {m : HostMove} {s t : State} (reads : moveWrites m = []) (same : s.SameBlock t) :
    MoveEffect m s t :=
  .inl ⟨t, same, by rw [reads]; rfl⟩

/-- Every move of the host writes, or resets, or only reads. -/
theorem hostMove_moveEffect {m : HostMove} {s t : State} (h : hostMove m s = .next t) : MoveEffect m s t := by
  cases m with
  | act a =>
    obtain ⟨_, rfl⟩ := hostActChecked_next h
    exact .inl ⟨s, SameBlock_refl s, rfl⟩
  | edge p =>
    obtain ⟨_, rfl⟩ := hostMove_edge_next h
    cases hr : p.rstN with
    | true => exact .inl ⟨_, portReads_sameBlock p s, by rw [clockEdge_of_running hr, moveWrites, if_pos hr]⟩
    | false =>
      exact .inr ⟨.inr ⟨p, rfl, hr⟩, SameBlock_trans (resetOf_sameBlock_resetBlock s) (clockEdge_of_reset hr s)⟩
  | reset =>
    cases h
    exact .inr ⟨.inl rfl, resetOf_sameBlock_resetBlock s⟩
  | wait =>
    cases h
    exact moveEffect_of_reads rfl (SameBlock_trans (ite_pushMoves_sameBlock _ _ s) (returnReg_sameBlock _ _))
  | read =>
    cases h
    exact moveEffect_of_reads rfl (SameBlock_trans (pushMoves_sameBlock _ s) (returnReg_sameBlock _ _))
  | readUnlessErr =>
    cases h
    exact moveEffect_of_reads rfl (SameBlock_trans (ite_pushMoves_sameBlock _ _ s) (returnReg_sameBlock _ _))
  | copyback =>
    cases h
    exact moveEffect_of_reads rfl (SameBlock_trans (pushMoves_sameBlock _ s) (returnReg_sameBlock _ _))
  | copyOut n ys =>
    obtain ⟨_, rfl⟩ := hostActChecked_next h
    exact moveEffect_of_reads rfl (SameBlock_trans (pushMoves_sameBlock _ s) (returnCell_sameBlock _ _))

/-- A turn of the host leaves the block when no move is pending, and else has the effect of the next move. -/
theorem hostTurn_moveEffect {s t : State} (h : hostTurn s = .next t) :
    s.SameBlock t ∨ ∃ m ms, s.pending = m :: ms ∧ MoveEffect m s t := by
  unfold hostTurn at h
  split at h
  · cases h
    exact .inl (SameBlock_refl s)
  · rename_i m ms hm
    have taken : s.SameBlock { s with pending := ms } := ⟨rfl, rfl, rfl, rfl, rfl, rfl, rfl⟩
    exact .inr ⟨m, ms, hm, MoveEffect_of_sameBlock taken (hostMove_moveEffect h)⟩

/-- All that a step can do to the block (R8, R37): publish a result while a command runs, nothing, or the effect of the
host's next move. -/
theorem step_blockEffect {s t : State} (h : step s = .next t) :
    (s.busy = true ∧ ∃ R o e, t = publish (advance s) R o e) ∨
    s.SameBlock t ∨ ∃ m ms, s.pending = m :: ms ∧ MoveEffect m s t := by
  rcases step_cases s with ⟨busy, _, he⟩ | ⟨_, _, he⟩ | ⟨_, he⟩ <;> rw [he] at h
  · obtain ⟨X, _, rfl⟩ := exec_next h
    exact .inl ⟨busy, _, _, _, rfl⟩
  · rcases hostTurn_moveEffect h with same | ⟨m, ms, hm, effect⟩
    · exact .inr (.inl (SameBlock_trans (advance_sameBlock s) same))
    · exact .inr (.inr ⟨m, ms, hm, MoveEffect_of_sameBlock (advance_sameBlock s) effect⟩)
  · exact .inr (hostTurn_moveEffect h)

/-! ## The operand while a command runs -/

/-- Whether a command runs is read from the block. -/
theorem busy_of_sameBlock {s t : State} (same : s.SameBlock t) : t.busy = s.busy := by
  obtain ⟨_, _, _, _, _, _, hst⟩ := same
  exact (flags_of_status hst).1

/-- R130: while a command runs no list of host actions changes the block. -/
theorem hostActs_of_busy (as : List HostAction) {s : State} (busy : s.busy = true) : s.SameBlock (hostActs as s) := by
  induction as generalizing s with
  | nil => exact SameBlock_refl s
  | cons a as ih =>
    have same : s.SameBlock (hostAct a s) := hostAct_of_busy busy a
    exact SameBlock_trans same (ih ((busy_of_sameBlock same).trans busy))

/-- While a command runs a move of the host leaves the block, or resets it (R126, R130). -/
theorem moveEffect_of_busy {m : HostMove} {s t : State} (busy : s.busy = true) (h : MoveEffect m s t) :
    s.SameBlock t ∨ (State.resetOf s.lenw).SameBlock t := by
  rcases h with ⟨u, hu, rfl⟩ | ⟨_, reset⟩
  · exact .inl (SameBlock_trans hu (hostActs_of_busy _ ((busy_of_sameBlock hu).trans busy)))
  · exact .inr reset

/-- All that a step can do to the block of a running command: publish a result, nothing, or a reset. -/
theorem step_blockEffect_of_busy {s t : State} (busy : s.busy = true) (h : step s = .next t) :
    (∃ R o e, t = publish (advance s) R o e) ∨ s.SameBlock t ∨ (State.resetOf s.lenw).SameBlock t := by
  rcases step_blockEffect h with ⟨_, published⟩ | same | ⟨m, ms, _, effect⟩
  · exact .inl published
  · exact .inr (.inl same)
  · exact .inr (moveEffect_of_busy busy effect)

/-- Settles O48: a completion step leaves the operand and the code, and any other step that is no reset leaves the whole
block. -/
theorem operandFixedWhileBusy : Obligations.OperandFixedWhileBusy := by
  intro s t busy h
  rcases step_blockEffect_of_busy busy h with ⟨R, o, e, rfl⟩ | same | reset
  · exact .inl ⟨rfl, rfl, rfl, .inr ⟨publish_busy .., publish_done ..⟩⟩
  · have busy' : t.busy = true := (busy_of_sameBlock same).trans busy
    obtain ⟨_, hbuf, hinlen, _, hlen, hcmd, hst⟩ := same
    exact .inl ⟨hbuf, hinlen, hcmd, .inl ⟨busy', hst, hlen⟩⟩
  · exact .inr reset

/-! ## The cells of `IN` -/

/-- The cells of `IN` belong to the block. -/
theorem memRead_of_sameBlock {s t : State} (same : s.SameBlock t) (a : Nat) :
    memRead t.inBuf a = memRead s.inBuf a := by
  obtain ⟨_, hbuf, _⟩ := same
  rw [hbuf]

/-- Only a `WIN` changes a cell of `IN`, the one it names, to the value it carries (R40, R55). -/
theorem hostAct_cell_changed {b : HostAction} {s : State} {a : Nat}
    (changed : memRead (hostAct b s).inBuf a ≠ memRead s.inBuf a) :
    ∃ v, b = .win a v ∧ memRead (hostAct b s).inBuf a = some v := by
  rcases hostAct_cases b s with same | ⟨_, ⟨i, v, rfl, win⟩ | ⟨n, _, wlen⟩ | ⟨op, _, start⟩⟩
  · exact absurd (memRead_of_sameBlock same a) changed
  · rw [win, memRead_memWrite] at changed ⊢
    have named : i = a := by
      by_contra other
      exact changed (if_neg other)
    exact ⟨v, by rw [named], if_pos named⟩
  · exact absurd (by rw [wlen]) changed
  · exact absurd (by rw [start]) changed

/-- A list of actions that changes a cell of `IN` holds a `WIN` of that cell with the value it leaves. -/
theorem hostActs_cell_changed {as : List HostAction} {s : State} {a : Nat}
    (changed : memRead (hostActs as s).inBuf a ≠ memRead s.inBuf a) :
    ∃ v, .win a v ∈ as ∧ memRead (hostActs as s).inBuf a = some v := by
  induction as generalizing s with
  | nil => exact absurd rfl changed
  | cons b as ih =>
    by_cases later : memRead (hostActs as (hostAct b s)).inBuf a = memRead (hostAct b s).inBuf a
    · obtain ⟨v, rfl, hv⟩ := hostAct_cell_changed fun same => changed (later.trans same)
      exact ⟨v, List.mem_cons_self, later.trans hv⟩
    · obtain ⟨v, hmem, hv⟩ := ih later
      exact ⟨v, List.mem_cons_of_mem _ hmem, hv⟩

/-- A register write is no `WIN` (R54). -/
theorem regWriteAction_ne_win (sel : BitVec 2) (w i : Nat) (v : Byte) : regWriteAction sel w ≠ .win i v := by
  unfold regWriteAction
  split_ifs <;> exact HostAction.noConfusion

/-- The `WIN` among an edge's writes is the one its `IN` port carries (R26, R54). -/
theorem inPort_of_win_mem_portWrites {p : Ports} {i : Nat} {v : Byte} (h : .win i v ∈ portWrites p) :
    p.inWe = true ∧ p.inIdx = i ∧ p.inData = v := by
  rcases List.mem_append.1 h with win | reg
  · split at win
    · cases List.mem_singleton.1 win
      exact ⟨‹_›, rfl, rfl⟩
    · cases win
  · split at reg
    · exact absurd (List.mem_singleton.1 reg).symm (regWriteAction_ne_win _ _ _ _)
    · cases reg

/-- A `WIN` among a move's writes is the move itself, or comes from the `IN` port of its edge. -/
theorem win_mem_moveWrites {m : HostMove} {i : Nat} {v : Byte} (h : .win i v ∈ moveWrites m) :
    m = .act (.win i v) ∨ ∃ p, m = .edge p ∧ p.rstN = true ∧ p.inWe = true ∧ p.inIdx = i ∧ p.inData = v := by
  cases m with
  | act a => exact .inl (by rw [List.mem_singleton.1 h])
  | edge p =>
    rw [moveWrites] at h
    split at h
    · exact .inr ⟨p, rfl, ‹_›, inPort_of_win_mem_portWrites h⟩
    · cases h
  | _ => cases h

/-- A move that changes a cell of `IN` found no command running and is a `WIN` of that cell, or it is a reset. -/
theorem moveEffect_cell_changed {m : HostMove} {s t : State} {a : Nat} (h : MoveEffect m s t)
    (changed : memRead t.inBuf a ≠ memRead s.inBuf a) :
    (s.busy = false ∧ ∃ v, memRead t.inBuf a = some v ∧ .win a v ∈ moveWrites m) ∨
    (memRead t.inBuf a = none ∧ ResetMove m) := by
  rcases h with ⟨u, same, rfl⟩ | ⟨reset, ht⟩
  · have idle : s.busy = false := by
      by_contra running
      have busy : u.busy = true := (busy_of_sameBlock same).trans (eq_true_of_ne_false running)
      exact changed (memRead_of_sameBlock (SameBlock_trans same (hostActs_of_busy _ busy)) a)
    rw [← memRead_of_sameBlock same] at changed
    obtain ⟨v, hmem, hv⟩ := hostActs_cell_changed changed
    exact .inl ⟨idle, v, hv, hmem⟩
  · exact .inr ⟨memRead_of_sameBlock ht a, reset⟩

/-- Settles O49: a completion step leaves `IN`, so a step that changes a cell is the host's next move, with a `WIN` of
that cell among its writes or a reset. -/
theorem inputCellsChangeOnlyByWinOrReset : Obligations.InputCellsChangeOnlyByWinOrReset := by
  intro s t a h changed
  rcases step_blockEffect h with ⟨_, R, o, e, rfl⟩ | same | ⟨m, ms, hm, effect⟩
  · exact absurd rfl changed
  · exact absurd (memRead_of_sameBlock same a) changed
  · refine ⟨m, ms, hm, ?_⟩
    rcases moveEffect_cell_changed effect changed with ⟨idle, v, hv, hmem⟩ | ⟨cleared, reset⟩
    · exact .inl ⟨idle, v, hv, win_mem_moveWrites hmem⟩
    · exact .inr ⟨cleared, reset⟩

end Sys2Proof.Machine
end

section
/-! The encodings of 30_encoding.md: the bit fields of a group, the command word, the character classes, the host's next
move as a step and the ports of a host action, and the statements of that file settled from them. -/

namespace Sys2Proof.Machine

/-! ## The bit fields of a group -/

/-- A slice that begins in the lower of two joined words and ends in the upper one: the low bits of the upper word and
the high bits of the lower one. -/
theorem extractLsb'_append_straddling {v w i k : Nat} (x : BitVec v) (y : BitVec w) (low : w = i + k) (len : Nat) :
    (x ++ y).extractLsb' i (len + k) = x.extractLsb' 0 len ++ y.extractLsb' i k := by
  rw [← BitVec.extractLsb'_append_extractLsb'_eq_extractLsb' low, BitVec.extractLsb'_append_eq_of_le (Nat.le_refl w),
    BitVec.extractLsb'_append_eq_of_add_le low.ge, Nat.sub_self]

/-- A word is two words joined when its low bits are the one's and its high bits the other's. -/
theorem eq_append_of_bits {n m : Nat} {z : BitVec (n + m)} {x : BitVec n} {y : BitVec m}
    (bits : ∀ k, k < n + m → z.getLsbD k = if k < m then y.getLsbD k else x.getLsbD (k - m)) : z = x ++ y :=
  BitVec.eq_of_getLsbD_eq fun k hk => by rw [BitVec.getLsbD_append, bits k hk]

/-- The second formula of R70 joins the low 2 bits of a byte and the high 4 of the next. -/
theorem symxSymbol1_eq_field (b0 b1 : Byte) :
    (((b0 &&& 0x03#8) <<< 4) ||| (b1 >>> 4)).setWidth 6 = b0.extractLsb' 0 2 ++ b1.extractLsb' 4 4 := by
  refine eq_append_of_bits (n := 2) (m := 4) fun k hk => ?_
  interval_cases k <;> simp

/-- The third formula of R70 joins the low 4 bits of a byte and the high 2 of the next. -/
theorem symxSymbol2_eq_field (b1 b2 : Byte) :
    (((b1 &&& 0x0F#8) <<< 2) ||| (b2 >>> 6)).setWidth 6 = b1.extractLsb' 0 4 ++ b2.extractLsb' 6 2 := by
  refine eq_append_of_bits (n := 4) (m := 2) fun k hk => ?_
  interval_cases k <;> simp

/-- The formulae of R70 give the bit fields of R49's table. -/
theorem symxFull_eq_fields (b0 b1 b2 : Byte) :
    symxFull b0 b1 b2 =
      (b0.extractLsb' 2 6, b0.extractLsb' 0 2 ++ b1.extractLsb' 4 4,
        b1.extractLsb' 0 4 ++ b2.extractLsb' 6 2, b2.extractLsb' 0 6) := by
  have field0 : (b0 >>> 2).setWidth 6 = b0.extractLsb' 2 6 := rfl
  have field3 : (b2 &&& 0x3F#8).setWidth 6 = b2.extractLsb' 0 6 := by
    ext k hk
    interval_cases k <;> simp
  rw [symxFull, field0, symxSymbol1_eq_field, symxSymbol2_eq_field, field3]

/-- The bit fields of R49's table are the 6-bit slices of the joined bytes, from the top. -/
theorem symxFull_eq_slices (b0 b1 b2 : Byte) :
    symxFull b0 b1 b2 =
      ((b0 ++ b1 ++ b2).extractLsb' 18 6, (b0 ++ b1 ++ b2).extractLsb' 12 6,
        (b0 ++ b1 ++ b2).extractLsb' 6 6, (b0 ++ b1 ++ b2).extractLsb' 0 6) := by
  have slice0 : (b0 ++ b1 ++ b2).extractLsb' 18 6 = b0.extractLsb' 2 6 := by
    rw [BitVec.extractLsb'_append_eq_of_le (by decide), BitVec.extractLsb'_append_eq_of_le (by decide)]
  have slice1 : (b0 ++ b1 ++ b2).extractLsb' 12 6 = b0.extractLsb' 0 2 ++ b1.extractLsb' 4 4 := by
    rw [BitVec.extractLsb'_append_eq_of_le (by decide)]
    exact extractLsb'_append_straddling (i := 4) (k := 4) b0 b1 rfl 2
  have slice2 : (b0 ++ b1 ++ b2).extractLsb' 6 6 = b1.extractLsb' 0 4 ++ b2.extractLsb' 6 2 := by
    rw [← BitVec.extractLsb'_append_eq_of_add_le (xhi := b0) (xlo := b1) (by decide)]
    exact extractLsb'_append_straddling (i := 6) (k := 2) (b0 ++ b1) b2 rfl 4
  have slice3 : (b0 ++ b1 ++ b2).extractLsb' 0 6 = b2.extractLsb' 0 6 :=
    BitVec.extractLsb'_append_eq_of_add_le (by decide)
  rw [symxFull_eq_fields, slice0, slice1, slice2, slice3]

/-- R73: the characters of a group are the alphabet's for its symbols, after the padding stage. -/
theorem encGroup_of_symx {b0 b1 b2 : Byte} {r : BytesPresent} {s0 s1 s2 s3 : Sym}
    (symbols : symx b0 b1 b2 r = (s0, s1, s2, s3)) :
    encGroup b0 b1 b2 r = pads (alut s0) (alut s1) (alut s2) (alut s3) r := by
  rw [encGroup, symbols]

/-- Settles O29: the slices of three bytes, and the fields with 0 for each absent byte under the padding stage. -/
theorem symbolsAreSlicesOfGroup : Obligations.SymbolsAreSlicesOfGroup := fun b0 b1 b2 =>
  ⟨symxFull_eq_slices b0 b1 b2, symxFull_eq_fields b0 b1 b2, encGroup_of_symx (symxFull_eq_slices b0 b1 b2),
    encGroup_of_symx (symxFull_eq_fields b0 b1 0#8), encGroup_of_symx (symxFull_eq_fields b0 0#8 0#8)⟩

/-- `byte0` of R85 is the first index and the high 2 bits of the second (R50). -/
theorem rcmbByte0_eq_field (i0 i1 : Sym) : rcmbByte0 i0 i1 = i0 ++ i1.extractLsb' 4 2 := by
  refine eq_append_of_bits (n := 6) (m := 2) fun k hk => ?_
  interval_cases k <;> simp [rcmbByte0]

/-- `byte0'` of R85 is the one index with two zero bits below it (R50). -/
theorem rcmbByte0Alone_eq_field (i0 : Sym) : rcmbByte0Alone i0 = i0 ++ 0b00#2 := by
  refine eq_append_of_bits (n := 6) (m := 2) fun k hk => ?_
  interval_cases k <;> simp [rcmbByte0Alone]

/-- `byte1` of R85 is the low 4 bits of the second index and the high 4 of the third (R50). -/
theorem rcmbByte1_eq_field (i1 i2 : Sym) : rcmbByte1 i1 i2 = i1.extractLsb' 0 4 ++ i2.extractLsb' 2 4 := by
  refine eq_append_of_bits (n := 4) (m := 4) fun k hk => ?_
  interval_cases k <;> simp [rcmbByte1]

/-- `byte2` of R85 is the low 2 bits of the third index and the fourth (R50). -/
theorem rcmbByte2_eq_field (i2 i3 : Sym) : rcmbByte2 i2 i3 = i2.extractLsb' 0 2 ++ i3 := by
  refine eq_append_of_bits (n := 2) (m := 6) fun k hk => ?_
  interval_cases k <;> simp [rcmbByte2]

/-- The three bytes of a whole group are the 8-bit slices of its joined indices, from the top (R50). -/
theorem rcmb_four_eq_slices (i0 i1 i2 i3 : Sym) :
    rcmb i0 i1 i2 i3 .four =
      [(i0 ++ i1 ++ i2 ++ i3).extractLsb' 16 8, (i0 ++ i1 ++ i2 ++ i3).extractLsb' 8 8,
        (i0 ++ i1 ++ i2 ++ i3).extractLsb' 0 8] := by
  have slice0 : (i0 ++ i1 ++ i2 ++ i3).extractLsb' 16 8 = rcmbByte0 i0 i1 := by
    rw [BitVec.extractLsb'_append_eq_of_le (by decide), BitVec.extractLsb'_append_eq_of_le (by decide),
      rcmbByte0_eq_field]
    simpa only [BitVec.extractLsb'_eq_self] using extractLsb'_append_straddling (i := 4) (k := 2) i0 i1 rfl 6
  have slice1 : (i0 ++ i1 ++ i2 ++ i3).extractLsb' 8 8 = rcmbByte1 i1 i2 := by
    rw [BitVec.extractLsb'_append_eq_of_le (by decide), rcmbByte1_eq_field,
      ← BitVec.extractLsb'_append_eq_of_add_le (xhi := i0) (xlo := i1) (by decide)]
    exact extractLsb'_append_straddling (i := 2) (k := 4) (i0 ++ i1) i2 rfl 4
  have slice2 : (i0 ++ i1 ++ i2 ++ i3).extractLsb' 0 8 = rcmbByte2 i2 i3 := by
    rw [rcmbByte2_eq_field, ← BitVec.extractLsb'_append_eq_of_add_le (xhi := i0 ++ i1) (xlo := i2) (by decide)]
    simpa only [BitVec.extractLsb'_eq_self] using
      extractLsb'_append_straddling (i := 0) (k := 6) (i0 ++ i1 ++ i2) i3 rfl 2
  rw [slice0, slice1, slice2, rcmb]

/-- Settles O30: the slices of a whole group, and the bytes' bit fields for each count of characters. -/
theorem bytesAreSlicesOfGroup : Obligations.BytesAreSlicesOfGroup := by
  refine ⟨fun _ _ _ _ _ => rfl, fun i0 i1 i2 i3 => ⟨rcmb_four_eq_slices i0 i1 i2 i3, ?_⟩⟩
  rw [← rcmbByte0_eq_field, ← rcmbByte1_eq_field, ← rcmbByte2_eq_field, ← rcmbByte0Alone_eq_field]
  exact ⟨rfl, rfl, rfl, rfl⟩

/-! ## The command word -/

/-- The family `CommandWord` covers every command. -/
theorem commandWord_statement (i : Instr) : Laws.CommandWord.Statement i := by
  cases i with
  | encode => exact Laws.CommandWord.encode
  | decode => exact Laws.CommandWord.decode
  | tryDecode => exact Laws.CommandWord.tryDecode
  | isValid => exact Laws.CommandWord.isValid

theorem decodeTableWord_encode (i : Instr) : decodeTableWord 8 (encode i).toNat = some i := by
  obtain ⟨_, _, decoded⟩ := commandWord_statement i
  exact decoded

/-- A word is the word of the command it decodes to (R46, R48). -/
theorem encode_decodeCommand : ∀ op : BitVec 2, encode (decodeCommand op) = op := by decide

/-- The bits of a wider word above the command word are ignored (R45). -/
theorem commandWord_mod_two_pow {n : Nat} (large : 2 ≤ n) (w : Nat) : commandWord (w % 2 ^ n) = commandWord w := by
  refine BitVec.eq_of_toNat_eq ?_
  simpa only [commandWord, BitVec.toNat_ofNat] using Nat.mod_mod_of_dvd w (Nat.pow_dvd_pow 2 large)

/-- Settles O1: the table words are the words of the commands. -/
theorem commandWordsDecode : Obligations.CommandWordsDecode :=
  ⟨decodeTableWord_encode .encode, decodeTableWord_encode .decode, decodeTableWord_encode .tryDecode,
    decodeTableWord_encode .isValid⟩

/-- Settles O2: decoder and encoder invert each other, and both sides of the last clause decode the low two bits. -/
theorem decoderIsTotalAndInvertsEncoder : Obligations.DecoderIsTotalAndInvertsEncoder := by
  refine ⟨fun _ _ => rfl, fun i => ?_, encode_decodeCommand, fun n w large => ?_⟩
  · obtain ⟨wellFormed, decoded, _⟩ := commandWord_statement i
    exact ⟨wellFormed, decoded⟩
  · have low : commandWord (w % 4) = commandWord w := commandWord_mod_two_pow (Nat.le_refl 2) w
    rw [decodeTableWord, decodeTableWord, commandWord_mod_two_pow large, commandWord_mod_two_pow (Nat.le_refl 2), low]

/-! ## The character classes -/

/-- A code that the reverse look-up hits is the alphabet's at the index found (R63). -/
theorem alut_rlut_of_inAlphabet {c : Byte} (hit : inAlphabet c = true) : alut (rlut c).2 = c := by
  unfold inAlphabet at hit
  unfold rlut at *
  split at hit
  · rename_i k found
    obtain ⟨hk, holds, _⟩ := List.findIdx?_eq_some_iff_getElem.1 found
    have index : (BitVec.ofNat 6 k).toNat = k := Nat.mod_eq_of_lt (alphabet_length ▸ hk : k < 64)
    simpa [alut, index] using holds
  · cases hit

/-- A code that the reverse look-up misses gives (0, 0) (R63). -/
theorem rlut_of_not_inAlphabet {c : Byte} (miss : inAlphabet c = false) : rlut c = (false, 0#6) := by
  unfold inAlphabet at miss
  unfold rlut at *
  split at miss
  · cases miss
  · rfl

theorem charClass_eq_symbol_iff (c : Byte) : charClass c = .symbol ↔ inAlphabet c = true := by
  unfold charClass
  split_ifs <;> simp [*]

theorem charClass_eq_padding_iff (c : Byte) : charClass c = .padding ↔ c = padCode := by
  unfold charClass
  split_ifs with hit pad
  · simp [ne_padCode_of_inAlphabet hit]
  · simp [pad]
  · simp [pad]

/-- The class of a code by the ranges of R53. -/
def rangeClass (n : Nat) : CharClass :=
  if n ≤ 0x2A ∨ (0x2C ≤ n ∧ n ≤ 0x2E) ∨ (0x3A ≤ n ∧ n ≤ 0x3C) ∨ (0x3E ≤ n ∧ n ≤ 0x40) ∨ (0x5B ≤ n ∧ n ≤ 0x60) ∨
    0x7B ≤ n then .other
  else if n = 0x3D then .padding
  else .symbol

/-- The scan of the alphabet and the ranges of R53 agree on each of the 256 codes. -/
theorem charClass_eq_rangeClass : ∀ c : Byte, charClass c = rangeClass c.toNat := by decide

theorem rangeClass_eq_other_iff (n : Nat) : rangeClass n = .other ↔
    (n ≤ 0x2A ∨ (0x2C ≤ n ∧ n ≤ 0x2E) ∨ (0x3A ≤ n ∧ n ≤ 0x3C) ∨ (0x3E ≤ n ∧ n ≤ 0x40) ∨ (0x5B ≤ n ∧ n ≤ 0x60) ∨
      0x7B ≤ n) := by
  unfold rangeClass
  split_ifs <;> simp_all only

/-- Counting up to a sum is counting in two parts. -/
theorem countP_range_add (p : Nat → Bool) (a b : Nat) :
    (List.range (a + b)).countP p = (List.range a).countP p + (List.range b).countP fun n => p (a + n) := by
  rw [List.range_add, List.countP_append, List.countP_map]
  rfl

/-- The codes of a class are counted in two halves, each in the form of R53's ranges. -/
theorem countP_charClass (k : CharClass) :
    ((List.range 256).countP fun c => charClass (BitVec.ofNat 8 c) == k) =
      ((List.range 128).countP fun n => rangeClass n == k) +
        (List.range 128).countP fun n => rangeClass (128 + n) == k := by
  rw [← countP_range_add (fun n => rangeClass n == k) 128 128]
  refine List.countP_congr fun n hn => ?_
  have code : (BitVec.ofNat 8 n).toNat = n := Nat.mod_eq_of_lt (List.mem_range.1 hn)
  rw [charClass_eq_rangeClass, code]

/-- Settles O28: a symbol is what the reverse look-up finds, and the ranges of R53 give the other codes and the
counts. -/
theorem characterClasses : Obligations.CharacterClasses := by
  refine ⟨fun c => ?_, charClass_eq_padding_iff, fun c => ?_, fun c miss => ?_, ?_, ?_, ?_⟩
  · rw [charClass_eq_symbol_iff]
    constructor
    · exact fun hit => ⟨(rlut c).2, alut_rlut_of_inAlphabet hit, Prod.ext hit rfl⟩
    · rintro ⟨k, rfl, _⟩
      exact inAlphabet_alut k
  · rw [charClass_eq_rangeClass, rangeClass_eq_other_iff]
  · rw [Ne, charClass_eq_symbol_iff, Bool.not_eq_true] at miss
    exact rlut_of_not_inAlphabet miss
  · rw [countP_charClass]
    decide
  · rw [countP_charClass]
    decide
  · rw [countP_charClass]
    decide

/-! ## The host's next move -/

/-- With no command running, or on a host turn while one runs, a step is the host's next move. -/
theorem step_of_hostMove {s : State} {m : HostMove} {ms : List HostMove}
    (turn : s.busy = false ∨ s.schedule.head? = some true) (next : s.pending = m :: ms) :
    step s = hostMove m { s with
      schedule := if s.busy then s.schedule.tail else s.schedule
      pending := ms } := by
  rcases step_cases s with ⟨busy, engine, _⟩ | ⟨busy, _, host⟩ | ⟨idle, host⟩
  · rcases turn with idle | scheduled
    · exact absurd (idle.symm.trans busy) Bool.false_ne_true
    · rw [List.headD_eq_head?_getD, scheduled] at engine
      cases engine
  · simp only [host, hostTurn, advance, next, busy, if_true]
  · simp only [host, hostTurn, next, idle, Bool.false_eq_true, if_false]

/-- With no command running an action within the ports' range is made, and that is the step. -/
theorem step_of_hostAct_idle {s : State} {a : HostAction} {ms : List HostMove} (idle : s.busy = false)
    (fits : actionFits s.lenw a = true) (next : s.pending = .act a :: ms) :
    step s = .next (hostAct a { s with pending := ms }) := by
  rw [step_of_hostMove (.inl idle) next, idle]
  exact if_pos fits

/-- R55: a `WLEN` with no command running writes `INLEN` and nothing else. -/
theorem hostAct_wlen_of_idle {s : State} (idle : s.busy = false) (n : Nat) :
    hostAct (.wlen n) s = { s with inlen := n } := by
  simp [hostAct, idle]

/-- Settles O15: each write is the step, on the state from which the move has been taken. -/
theorem hostWritesTakeEffectWhenIdle : Obligations.HostWritesTakeEffectWhenIdle := by
  refine ⟨fun s i v ms idle inRange next => ⟨memWrite s.inBuf i v, ?_, fun a => ?_⟩,
    fun s n ms idle inRange next => ?_⟩
  · have fits : actionFits s.lenw (.win i v) = true := decide_eq_true inRange
    rw [step_of_hostAct_idle idle fits next, hostAct_win_of_idle (s := { s with pending := ms }) idle]
  · simp only [memRead_memWrite, eq_comm]
  · have fits : actionFits s.lenw (.wlen n) = true := decide_eq_true inRange
    rw [step_of_hostAct_idle idle fits next, hostAct_wlen_of_idle (s := { s with pending := ms }) idle]

/-- R57: a `WAIT` returns `STATUS` and stays the next move until `DONE = 1`. -/
theorem hostMove_wait (s : State) :
    hostMove .wait s = .next { s with
      returned := .reg 2#2 s.status.toNat :: s.returned
      pending := if s.done then s.pending else .wait :: s.pending } := by
  rw [hostMove]
  split <;> rfl

/-- R57: a `READ` returns `OUTLEN` and leaves that many `ROUT` as the next moves. -/
theorem hostMove_read (s : State) :
    hostMove .read s = .next { s with
      returned := .reg 3#2 s.outlen :: s.returned
      pending := routMoves s.outlen ++ s.pending } := rfl

/-- Settles O21: each pseudo-instruction is the step, on the state from which the move has been taken. -/
theorem waitAndReadExpand : Obligations.WaitAndReadExpand := by
  intro s ms turn
  refine ⟨fun next => ?_, fun next => ?_⟩
  · rw [step_of_hostMove turn next, hostMove_wait]
    rfl
  · rw [step_of_hostMove turn next, hostMove_read]
    rfl

/-! ## The ports of a host action -/

/-- Port values within their widths fit the ports (R26). -/
theorem portsFit_of_lt {lenw : Nat} {p : Ports} (wdata : p.regWdata < 2 ^ lenw) (inIdx : p.inIdx < 2 ^ lenw)
    (outIdx : p.outIdx < 2 ^ (lenw + 1)) : portsFit lenw p = true := by
  simp only [portsFit, wdata, inIdx, outIdx, decide_true, Bool.and_self]

/-- The port values of an action within its range (R55) fit the ports; a command word has 2 bits, and `LENW >= 2`. -/
theorem actionPorts_fit {lenw : Nat} (large : 2 ≤ lenw) {a : HostAction} (fits : actionFits lenw a = true) :
    portsFit lenw (actionPorts a) = true := by
  have zero : 0 < 2 ^ lenw := Nat.two_pow_pos lenw
  have zeroOut : 0 < 2 ^ (lenw + 1) := Nat.two_pow_pos (lenw + 1)
  cases a with
  | win i v => exact portsFit_of_lt zero (of_decide_eq_true fits) zeroOut
  | wlen n => exact portsFit_of_lt (of_decide_eq_true fits) zero zeroOut
  | start op => exact portsFit_of_lt (op.isLt.trans_le (Nat.pow_le_pow_right two_pos large)) zero zeroOut
  | rout i => exact portsFit_of_lt zero zero (of_decide_eq_true fits)
  | wstatus v => exact portsFit_of_lt (of_decide_eq_true fits) zero zeroOut
  | woutlen v => exact portsFit_of_lt (of_decide_eq_true fits) zero zeroOut
  | rstat => exact portsFit_of_lt zero zero zeroOut
  | rlen => exact portsFit_of_lt zero zero zeroOut
  | rcmd => exact portsFit_of_lt zero zero zeroOut
  | rinlen => exact portsFit_of_lt zero zero zeroOut

theorem actionPorts_rstN (a : HostAction) : (actionPorts a).rstN = true := by
  cases a <;> rfl

/-- The actions of the edge that an action makes: `OUT` is always read, and a register unless one is written (R26). -/
def edgeActions : HostAction → List HostAction
  | .win i v => [.rcmd, .rout 0, .win i v]
  | .wlen n => [.rout 0, .wlen n]
  | .start op => [.rout 0, .start op]
  | .rstat => [.rstat, .rout 0]
  | .rlen => [.rlen, .rout 0]
  | .rout i => [.rcmd, .rout i]
  | .rcmd => [.rcmd, .rout 0]
  | .rinlen => [.rinlen, .rout 0]
  | .wstatus v => [.rout 0, .wstatus v]
  | .woutlen v => [.rout 0, .woutlen v]

/-- The ports read back what was put on them (R54); for a START, the command word from its number. -/
theorem portActions_actionPorts (a : HostAction) :
    portReads (actionPorts a) ++ portWrites (actionPorts a) = edgeActions a := by
  cases a with
  | start op =>
    have word : commandWord op.toNat = op := BitVec.eq_of_toNat_eq (Nat.mod_eq_of_lt op.isLt)
    exact congrArg (fun o => [.rout 0, HostAction.start o]) word
  | _ => rfl

/-- An action's edge carries it, and beside it only what idle ports read. -/
theorem edgeActions_carry (a : HostAction) :
    a ∈ edgeActions a ∧ ∀ b ∈ edgeActions a, b = a ∨ b = .rcmd ∨ b = .rout 0 := by
  cases a <;> simp [edgeActions]

/-- Settles O19: the ports fit by the action's range, and the edge's actions are written out by action. -/
theorem actionPortsCarryAction : Obligations.ActionPortsCarryAction := by
  intro lenw a large fits
  rw [portActions_actionPorts]
  exact ⟨actionPorts_fit large fits, actionPorts_rstN a, edgeActions_carry a⟩

end Sys2Proof.Machine
end

section
/-! The look-up units of 40_alphabet_luts.md: the character codes of the alphabet in closed form, what the reverse
look-up answers for a hit and for a miss, and the statements of that file settled from them. -/

namespace Sys2Proof.Machine

/-! ## The alphabet -/

/-- The character code of a symbol in R60's closed form. -/
def alphabetCode (k : Nat) : Nat :=
  if k ≤ 25 then 0x41 + k
  else if k ≤ 51 then 0x61 + (k - 26)
  else if k ≤ 61 then 0x30 + (k - 52)
  else if k = 62 then 0x2B
  else 0x2F

/-- Each of the 64 entries of the table has its code of R60's closed form. -/
theorem alut_eq_alphabetCode : ∀ s : Sym, alut s = BitVec.ofNat 8 (alphabetCode s.toNat) := by decide

/-- The codes of the closed form are printable (R62 (c)). -/
theorem alphabetCode_printable (k : Nat) : 0x21 ≤ alphabetCode k ∧ alphabetCode k ≤ 0x7E := by
  unfold alphabetCode
  split_ifs <;> omega

theorem alut_toNat (s : Sym) : (alut s).toNat = alphabetCode s.toNat := by
  obtain ⟨_, high⟩ := alphabetCode_printable s.toNat
  rw [alut_eq_alphabetCode, BitVec.toNat_ofNat, Nat.mod_eq_of_lt (by omega)]

/-- Settles O25: the branch of the closed form, range by range. -/
theorem alphabetClosedForm : Obligations.AlphabetClosedForm := by
  intro s
  rw [alut_eq_alphabetCode]
  refine ⟨fun upper => ?_, fun low high => ?_, fun low high => ?_, fun plus => ?_, fun slash => ?_⟩
  · rw [alphabetCode, if_pos upper]
  · rw [alphabetCode, if_neg (by omega), if_pos high]
  · rw [alphabetCode, if_neg (by omega), if_neg (by omega), if_pos high]
  · rw [plus]
    rfl
  · rw [slash]
    rfl

/-- The alphabet's entries are distinct, since the reverse look-up tells them apart (R62 (a)). -/
theorem alut_injective : Function.Injective alut := fun j k same => by
  have found : (true, j) = (true, k) := by rw [← rlut_alut j, same, rlut_alut]
  exact congrArg Prod.snd found

theorem alut_printable (s : Sym) : 0x21 ≤ (alut s).toNat ∧ (alut s).toNat ≤ 0x7E := by
  rw [alut_toNat]
  exact alphabetCode_printable s.toNat

/-- Every whitespace code is below the printable ones (R5). -/
theorem toNat_lt_of_mem_whitespace : ∀ c ∈ Config.whitespace, c.toNat < 0x21 := by decide

/-- Settles O26: a printable code, of the alphabet or `PAD`, is above every whitespace code. -/
theorem alphabetInvariants : Obligations.AlphabetInvariants := by
  refine ⟨rfl, fun _ _ same => alut_injective same, alut_ne_padCode, alut_printable, fun k white => ?_, fun white => ?_⟩
  · obtain ⟨low, _⟩ := alut_printable k
    exact absurd (toNat_lt_of_mem_whitespace _ white) low.not_gt
  · exact absurd (toNat_lt_of_mem_whitespace _ white) (by decide)

/-! ## The reverse look-up -/

/-- The reverse look-up of a code of the closed form is its symbol. -/
theorem rlut_of_toNat_eq_alphabetCode {c : Byte} {k : Nat} (symbol : k < 64) (code : c.toNat = alphabetCode k) :
    rlut c = (true, BitVec.ofNat 6 k) := by
  have index : (BitVec.ofNat 6 k).toNat = k := Nat.mod_eq_of_lt symbol
  have entry : c = alut (BitVec.ofNat 6 k) := BitVec.eq_of_toNat_eq (by rw [alut_toNat, index, code])
  rw [entry, rlut_alut]

/-- The reverse look-up of a code that the alphabet does not hold is (0, 0) (R63). -/
theorem rlut_of_forall_alut_ne {c : Byte} (absent : ∀ k : Sym, alut k ≠ c) : rlut c = (false, 0#6) :=
  rlut_of_not_inAlphabet (Bool.eq_false_of_not_eq_true fun hit => absent _ (alut_rlut_of_inAlphabet hit))

/-- R63's closed form: in each range the index's code is the character's, and outside them no entry has it. -/
theorem rlut_eq_closedForm (c : Byte) : rlut c =
    if 0x41 ≤ c.toNat ∧ c.toNat ≤ 0x5A then (true, BitVec.ofNat 6 (c.toNat - 0x41))
    else if 0x61 ≤ c.toNat ∧ c.toNat ≤ 0x7A then (true, BitVec.ofNat 6 (c.toNat - 0x61 + 26))
    else if 0x30 ≤ c.toNat ∧ c.toNat ≤ 0x39 then (true, BitVec.ofNat 6 (c.toNat - 0x30 + 52))
    else if c.toNat = 0x2B then (true, 62#6)
    else if c.toNat = 0x2F then (true, 63#6)
    else (false, 0#6) := by
  split_ifs with upper lower digit plus slash
  · refine rlut_of_toNat_eq_alphabetCode (by omega) ?_
    rw [alphabetCode, if_pos (by omega)]
    omega
  · refine rlut_of_toNat_eq_alphabetCode (by omega) ?_
    rw [alphabetCode, if_neg (by omega), if_pos (by omega)]
    omega
  · refine rlut_of_toNat_eq_alphabetCode (by omega) ?_
    rw [alphabetCode, if_neg (by omega), if_neg (by omega), if_pos (by omega)]
    omega
  · exact rlut_of_toNat_eq_alphabetCode (by decide) plus
  · exact rlut_of_toNat_eq_alphabetCode (by decide) slash
  · refine rlut_of_forall_alut_ne fun k entry => ?_
    have code : c.toNat = alphabetCode k.toNat := by rw [← entry, alut_toNat]
    unfold alphabetCode at code
    split_ifs at code <;> omega

/-- R65: entry `c` of the reverse ROM is `RLUT(c)`. -/
theorem reverseRom_getElem? (c : Byte) : reverseRom[c.toNat]? = some (rlut c) := by
  rw [reverseRom, List.getElem?_map, List.getElem?_range c.isLt, Option.map_some, BitVec.ofNat_toNat,
    BitVec.setWidth_eq]

/-- Settles O27: a hit, a miss, `PAD` as a miss, the closed form, and the ROM's entries. -/
theorem reverseLookupInvertsAlphabet : Obligations.ReverseLookupInvertsAlphabet :=
  ⟨rlut_alut, fun _ => rlut_of_forall_alut_ne, rlut_of_not_inAlphabet inAlphabet_padCode, rlut_eq_closedForm,
    by rw [reverseRom, List.length_map, List.length_range], reverseRom_getElem?⟩

end Sys2Proof.Machine
end

section
/-! The encoder of 41_encode.md: the group loop of R74, the parts of an encoded message and what they decode to, and the
statements of that file settled from them. -/

namespace Sys2Proof.Machine

/-! ## The parts of an encoded message -/

/-- The bytes of a group that are really present (R70). -/
def presentBytes (b0 b1 b2 : Byte) : BytesPresent → List Byte
  | .three => [b0, b1, b2]
  | .two => [b0, b1]
  | .one => [b0]

/-- How many of a group's four characters are symbols, not padding (R72). -/
def charsOfBytes : BytesPresent → CharsPresent
  | .three => .four
  | .two => .three
  | .one => .two

/-- Characters of the alphabet are looked up to their symbols, so a group of them is recombined from those (R86). -/
theorem decGroup_alut (s0 s1 s2 s3 : Sym) (r : CharsPresent) :
    decGroup (alut s0) (alut s1) (alut s2) (alut s3) r = rcmb s0 s1 s2 s3 r := by
  simp only [decGroup, rlut_alut]

/-- A group has four symbols whose characters, under the padding stage, are its encoding, and those before the padding
decode to its bytes. -/
theorem exists_symbols_encGroup (b0 b1 b2 : Byte) (r : BytesPresent) : ∃ s0 s1 s2 s3 : Sym,
    encGroup b0 b1 b2 r = pads (alut s0) (alut s1) (alut s2) (alut s3) r ∧
    decGroup (alut s0) (alut s1) (alut s2) (alut s3) (charsOfBytes r) = presentBytes b0 b1 b2 r := by
  refine ⟨_, _, _, _, encGroup_of_symx rfl, ?_⟩
  rw [decGroup_alut]
  cases r with
  | one => exact rcmb_symx_one b0 b1 b2
  | two => exact rcmb_symx_two b0 b1 b2
  | three => exact rcmb_symx_three b0 b1 b2

/-- `A` is the encoding of `B` without its padding: alphabet characters that decode to `B`, with the padding of R77
after them. -/
structure IsUnpaddedEncoding (B A : List Byte) : Prop where
  symbols : ∀ c ∈ A, inAlphabet c = true
  decodes : decodeGroups A = B
  padded : encodeMsg B = A ++ List.replicate ((3 - B.length % 3) % 3) padCode

/-- A whole group puts its four characters first and has no padding. -/
theorem isUnpaddedEncoding_three (b0 b1 b2 : Byte) {B A : List Byte} (h : IsUnpaddedEncoding B A) :
    IsUnpaddedEncoding (b0 :: b1 :: b2 :: B) (encGroup b0 b1 b2 .three ++ A) := by
  obtain ⟨s0, s1, s2, s3, group, decoded⟩ := exists_symbols_encGroup b0 b1 b2 .three
  constructor
  · rw [group]
    exact List.forall_mem_append.2 ⟨by simp [pads], h.symbols⟩
  · calc decodeGroups (encGroup b0 b1 b2 .three ++ A)
        = decGroup (alut s0) (alut s1) (alut s2) (alut s3) .four ++ decodeGroups A := by rw [group]; rfl
      _ = [b0, b1, b2] ++ B := congrArg₂ (· ++ ·) decoded h.decodes
  · have rest : (b0 :: b1 :: b2 :: B).length % 3 = B.length % 3 := Nat.add_mod_right B.length 3
    rw [encodeMsg, h.padded, rest, List.append_assoc]

/-- R77: every encoded message is alphabet characters and then its padding; a last group of one byte has two characters,
one of two bytes three. -/
theorem exists_isUnpaddedEncoding : ∀ B : List Byte, ∃ A, IsUnpaddedEncoding B A
  | [] => ⟨[], nofun, rfl, rfl⟩
  | [b0] => by
    obtain ⟨s0, s1, s2, s3, group, decoded⟩ := exists_symbols_encGroup b0 0#8 0#8 .one
    exact ⟨[alut s0, alut s1], by simp, decoded, group⟩
  | [b0, b1] => by
    obtain ⟨s0, s1, s2, s3, group, decoded⟩ := exists_symbols_encGroup b0 b1 0#8 .two
    exact ⟨[alut s0, alut s1, alut s2], by simp, decoded, group⟩
  | b0 :: b1 :: b2 :: B => by
    obtain ⟨A, h⟩ := exists_isUnpaddedEncoding B
    exact ⟨_, isUnpaddedEncoding_three b0 b1 b2 h⟩

/-! ## Alphabet characters with padding after them -/

/-- The effective-length part of alphabet characters with up to two `PAD` after them is those characters (R100). -/
theorem take_effLen_append_pads {A : List Byte} {k : Nat} (hk : k ≤ 2) (symbols : ∀ c ∈ A, inAlphabet c = true) :
    (A ++ List.replicate k padCode).take (effLen (A ++ List.replicate k padCode)) = A := by
  have last : ∀ c, A.getLast? = some c → c ≠ padCode := fun c hc =>
    ne_padCode_of_inAlphabet (symbols c (List.mem_of_getLast? hc))
  rw [effLen_append_pads hk last, List.take_left]

/-- The padding is set aside in decoding (R87). -/
theorem decodeRaw_append_pads {A : List Byte} {k : Nat} (hk : k ≤ 2) (symbols : ∀ c ∈ A, inAlphabet c = true) :
    decodeRaw (A ++ List.replicate k padCode) = decodeGroups A := by
  rw [decodeRaw, take_effLen_append_pads hk symbols]

/-- A text that does not start with `PAD` is judged by its effective-length part alone (R101). -/
theorem isValidText_cons {c : Byte} (first : c ≠ padCode) (T : List Byte) :
    isValidText (c :: T) = ((c :: T).take (effLen (c :: T))).all inAlphabet := if_neg first

/-- One or more alphabet characters with up to two `PAD` after them are a valid text (R101). -/
theorem isValidText_append_pads {A : List Byte} {k : Nat} (nonempty : A ≠ []) (hk : k ≤ 2)
    (symbols : ∀ c ∈ A, inAlphabet c = true) : isValidText (A ++ List.replicate k padCode) = true := by
  cases A with
  | nil => exact absurd rfl nonempty
  | cons a A =>
    have first : a ≠ padCode := ne_padCode_of_inAlphabet (symbols a List.mem_cons_self)
    rw [List.cons_append, isValidText_cons first, ← List.cons_append, take_effLen_append_pads hk symbols]
    exact List.all_eq_true.2 symbols

/-! ## The round trip -/

/-- R79: what an encoded message decodes to. -/
theorem decodeRaw_encodeMsg (B : List Byte) : decodeRaw (encodeMsg B) = B := by
  obtain ⟨A, h⟩ := exists_isUnpaddedEncoding B
  rw [h.padded, decodeRaw_append_pads (by omega) h.symbols, h.decodes]

/-- R79: the encoding of at least one byte is a valid text. -/
theorem isValidText_encodeMsg {B : List Byte} (nonempty : B ≠ []) : isValidText (encodeMsg B) = true := by
  obtain ⟨A, h⟩ := exists_isUnpaddedEncoding B
  have characters : A ≠ [] := by
    rintro rfl
    exact nonempty h.decodes.symm
  rw [h.padded]
  exact isValidText_append_pads characters (by omega) h.symbols

/-- Settles O42: the padding is set aside and the alphabet characters decode group by group; a left inverse makes
`Encode` injective. -/
theorem decodeInvertsEncode : Obligations.DecodeInvertsEncode :=
  ⟨decodeRaw_encodeMsg, fun _ => isValidText_encodeMsg,
    fun _ _ same => Function.LeftInverse.injective decodeRaw_encodeMsg same⟩

/-- Settles O34: the characters before the padding, without what they decode to. -/
theorem encodedPadding : Obligations.EncodedPadding := by
  intro B
  obtain ⟨A, h⟩ := exists_isUnpaddedEncoding B
  exact ⟨A, h.padded, h.symbols⟩

/-! ## The group loop -/

/-- What the body of R74's loop appends for group `g`: the bytes from `3g` on, as many as are left. -/
def encodeGroupAt (B : List Byte) (g : Nat) : List Byte :=
  encGroup (B.getD (3 * g) 0#8) (B.getD (3 * g + 1) 0#8) (B.getD (3 * g + 2) 0#8) (bytesLeft (min 3 (B.length - 3 * g)))

/-- The first group of three or more bytes is whole. -/
theorem encodeGroupAt_zero (b0 b1 b2 : Byte) (B : List Byte) :
    encodeGroupAt (b0 :: b1 :: b2 :: B) 0 = encGroup b0 b1 b2 .three := by
  have left : min 3 ((b0 :: b1 :: b2 :: B).length - 3 * 0) = 3 := Nat.min_eq_left (Nat.le_add_left 3 B.length)
  rw [encodeGroupAt, left]
  rfl

/-- Every later group is one of the message without its first three bytes. -/
theorem encodeGroupAt_succ (b0 b1 b2 : Byte) (B : List Byte) (g : Nat) :
    encodeGroupAt (b0 :: b1 :: b2 :: B) (g + 1) = encodeGroupAt B g := by
  have left : (b0 :: b1 :: b2 :: B).length - 3 * (g + 1) = B.length - 3 * g := by
    simp only [List.length_cons]
    omega
  rw [encodeGroupAt, left]
  rfl

/-- The recursion of `encodeMsg` and the loop over `g` take the groups in the same order. -/
theorem encodeMsg_eq_flatMap_encodeGroupAt : ∀ B : List Byte,
    encodeMsg B = (List.range ((B.length + 2) / 3)).flatMap (encodeGroupAt B)
  | [] => rfl
  | [b0] => by
    have only : encodeMsg [b0] = encodeGroupAt [b0] 0 := rfl
    simpa using only
  | [b0, b1] => by
    have only : encodeMsg [b0, b1] = encodeGroupAt [b0, b1] 0 := rfl
    simpa using only
  | b0 :: b1 :: b2 :: B => by
    have groups : ((b0 :: b1 :: b2 :: B).length + 2) / 3 = (B.length + 2) / 3 + 1 := by
      simp only [List.length_cons]
      omega
    rw [groups, List.range_succ_eq_map, List.flatMap_cons, List.flatMap_map, encodeGroupAt_zero]
    simp only [encodeGroupAt_succ]
    rw [encodeMsg, encodeMsg_eq_flatMap_encodeGroupAt B]

/-- Settles O31: the loop's body is `encodeGroupAt`. -/
theorem encodeFollowsGroupLoop : Obligations.EncodeFollowsGroupLoop :=
  encodeMsg_eq_flatMap_encodeGroupAt

/-! ## The length, and the command -/

/-- The largest `OUTLEN` (R15) is below the depth of `OUT`, since `LENW >= 2`. -/
theorem maxOutlen_lt {lenw : Nat} (large : 2 ≤ lenw) : maxOutlen lenw < 2 ^ (lenw + 1) := by
  have depth : 2 ^ 2 ≤ 2 ^ lenw := Nat.pow_le_pow_right two_pos large
  rw [maxOutlen, Nat.pow_succ]
  omega

/-- Settles O33: the length law, and a message that `INLEN` can count is within the largest `OUTLEN`. -/
theorem encodedLength : Obligations.EncodedLength := fun B =>
  ⟨encodeMsg_length B, by rw [encodeMsg_length, Nat.mul_mod_right], rfl, fun _ large counted =>
    (resultOf_length_le_maxOutlen counted .encode).trans_lt (maxOutlen_lt large)⟩

/-- Settles O5: ENCODE publishes the encoded operand, whose length the law gives. -/
theorem encodeCompletes : Obligations.EncodeCompletes := by
  refine ⟨by decide, fun s B hB => ⟨encodeMsg_length B, ?_⟩⟩
  rw [exec_of_holds hB, ← encodeMsg_length, ← statusCompleted_ok]
  rfl

end Sys2Proof.Machine
end

section
/-! The decoder of 42_decode.md: the group loop of R87, the length of a decoded text, what a valid text holds, the bits
a short group drops, and the statements of that file settled from them. -/

namespace Sys2Proof.Machine

/-! ## The group loop -/

/-- What the body of R87's loop appends for group `g` of a text of effective length `e`: the bytes of the characters
from `4g` on, as many as are left below `e`. -/
def decodeGroupAt (T : List Byte) (e g : Nat) : List Byte :=
  decGroup (T.getD (4 * g) 0#8) (T.getD (4 * g + 1) 0#8) (T.getD (4 * g + 2) 0#8) (T.getD (4 * g + 3) 0#8)
    (charsLeft (min 4 (e - 4 * g)))

/-- The first group is whole where four characters or more are left. -/
theorem decodeGroupAt_zero (c0 c1 c2 c3 : Byte) (T : List Byte) (e : Nat) :
    decodeGroupAt (c0 :: c1 :: c2 :: c3 :: T) (e + 4) 0 = decGroup c0 c1 c2 c3 .four := by
  have left : min 4 (e + 4 - 4 * 0) = 4 := Nat.min_eq_left (Nat.le_add_left 4 e)
  rw [decodeGroupAt, left]
  rfl

/-- Every later group is one of the text without its first four characters. -/
theorem decodeGroupAt_succ (c0 c1 c2 c3 : Byte) (T : List Byte) (e g : Nat) :
    decodeGroupAt (c0 :: c1 :: c2 :: c3 :: T) (e + 4) (g + 1) = decodeGroupAt T e g := by
  have left : e + 4 - 4 * (g + 1) = e - 4 * g := by omega
  rw [decodeGroupAt, left]
  rfl

/-- The recursion of `decodeGroups` over the characters `A` and the loop over `g` take the groups in the same order;
the loop looks up no character of the `R` that follows them. -/
theorem decodeGroups_eq_flatMap_decodeGroupAt (R : List Byte) : ∀ A : List Byte,
    decodeGroups A = (List.range ((A.length + 3) / 4)).flatMap (decodeGroupAt (A ++ R) A.length)
  | [] => rfl
  | [c0] => by
    have only : decodeGroups [c0] = decodeGroupAt ([c0] ++ R) 1 0 := rfl
    simpa using only
  | [c0, c1] => by
    have only : decodeGroups [c0, c1] = decodeGroupAt ([c0, c1] ++ R) 2 0 := rfl
    simpa using only
  | [c0, c1, c2] => by
    have only : decodeGroups [c0, c1, c2] = decodeGroupAt ([c0, c1, c2] ++ R) 3 0 := rfl
    simpa using only
  | c0 :: c1 :: c2 :: c3 :: A => by
    have groups : (A.length + 4 + 3) / 4 = (A.length + 3) / 4 + 1 := by omega
    simp only [List.length_cons, List.cons_append]
    rw [groups, List.range_succ_eq_map, List.flatMap_cons, List.flatMap_map, decodeGroupAt_zero]
    simp only [decodeGroupAt_succ]
    rw [decodeGroups, decodeGroups_eq_flatMap_decodeGroupAt R A]

/-- The effective-length part has `EffLen(T)` characters (R100). -/
@[simp] theorem length_take_effLen (T : List Byte) : (T.take (effLen T)).length = effLen T :=
  List.length_take_of_le (effLen_le T)

/-- Settles O32: the effective-length part is the loop's `A`, and the padding set aside its `R`. -/
theorem decodeFollowsGroupLoop : Obligations.DecodeFollowsGroupLoop := by
  intro T
  have loop := decodeGroups_eq_flatMap_decodeGroupAt (T.drop (effLen T)) (T.take (effLen T))
  rwa [List.take_append_drop, length_take_effLen] at loop

/-! ## The length of a decoded text -/

/-- R88's law for the group loop: three bytes for each whole group, and `(r + 1) / 2` for a last one of `r < 4`
characters. -/
theorem decodeGroups_length : ∀ T : List Byte,
    (decodeGroups T).length = 3 * (T.length / 4) + (T.length % 4 + 1) / 2
  | [] => rfl
  | [_] => by simp [decodeGroups, decGroup, rcmb]
  | [_, _] => by simp [decodeGroups, decGroup, rcmb]
  | [_, _, _] => by simp [decodeGroups, decGroup, rcmb]
  | _ :: _ :: _ :: _ :: T => by
    have ih := decodeGroups_length T
    simp only [decodeGroups, decGroup, rcmb, List.length_append, List.length_cons, List.length_nil, ih]
    omega

theorem decodeRaw_length (T : List Byte) :
    (decodeRaw T).length = 3 * (effLen T / 4) + (effLen T % 4 + 1) / 2 := by
  rw [decodeRaw, decodeGroups_length, length_take_effLen]

/-- A text with a character left after its padding decodes to a byte at least (R88). -/
theorem one_le_decodeRaw_length {T : List Byte} (left : 1 ≤ effLen T) : 1 ≤ (decodeRaw T).length := by
  rw [decodeRaw_length]
  omega

/-- Settles O35: `(r + 1) / 2` is R88's table for `r = 0, 1, 2, 3`. -/
theorem decodedLength : Obligations.DecodedLength := by
  intro T
  refine ⟨?_, decodeRaw_length_le T, one_le_decodeRaw_length⟩
  rw [decodeRaw_length]
  split_ifs <;> omega

/-! ## Valid texts -/

/-- A valid text starts with a character other than `PAD` (R101). -/
theorem exists_cons_of_isValidText {T : List Byte} (valid : isValidText T = true) :
    ∃ c T', T = c :: T' ∧ c ≠ padCode := by
  cases T with
  | nil => cases valid
  | cons c T =>
    refine ⟨c, T, rfl, ?_⟩
    rintro rfl
    exact absurd valid (by simp [isValidText])

/-- The effective-length part of a valid text is of the alphabet (R101). -/
theorem inAlphabet_of_isValidText {T : List Byte} (valid : isValidText T = true) :
    ∀ c ∈ T.take (effLen T), inAlphabet c = true := by
  obtain ⟨c, T', rfl, first⟩ := exists_cons_of_isValidText valid
  rw [isValidText_cons first] at valid
  exact List.all_eq_true.1 valid

/-- After a first character that is not `PAD`, a `PAD` is the second character or a later one. -/
theorem two_le_of_padAt_cons {c : Byte} (first : c ≠ padCode) {T : List Byte} {n : Nat}
    (pad : padAt (c :: T) n = true) : 2 ≤ n := by
  match n, pad with
  | 0, pad => simp [padAt] at pad
  | 1, pad => simp [padAt, first] at pad
  | n + 2, _ => exact Nat.le_add_left 2 n

/-- A first character that is not `PAD` is never set aside (R102). -/
theorem one_le_effLen_cons {c : Byte} (first : c ≠ padCode) (T : List Byte) : 1 ≤ effLen (c :: T) := by
  unfold effLen
  split_ifs with last next
  · have := two_le_of_padAt_cons first next
    omega
  · have := two_le_of_padAt_cons first last
    omega
  · exact Nat.le_add_left 1 T.length

theorem one_le_effLen_of_isValidText {T : List Byte} (valid : isValidText T = true) : 1 ≤ effLen T := by
  obtain ⟨c, T', rfl, first⟩ := exists_cons_of_isValidText valid
  exact one_le_effLen_cons first T'

/-- Settles O41: an alphabet character is the entry it looks up, and an absent one looks up (0, 0). -/
theorem validTextLookupsHit : Obligations.ValidTextLookupsHit := by
  refine ⟨fun T valid c hc => ?_, fun c miss => by rw [rlut_of_not_inAlphabet miss]⟩
  have hit := inAlphabet_of_isValidText valid c hc
  exact ⟨(rlut c).2, Prod.ext hit rfl, alut_rlut_of_inAlphabet hit⟩

/-! ## What the decoder does not check -/

/-- A text that does not end in `PAD` is decoded whole. -/
theorem decodeRaw_of_getLast {T : List Byte} (last : ∀ c, T.getLast? = some c → c ≠ padCode) :
    decodeRaw T = decodeGroups T := by
  have whole : effLen T = T.length := by simpa using effLen_append_pads (Nat.zero_le 2) last
  rw [decodeRaw, whole, List.take_length]

/-- A last group after whole groups, its last character in the alphabet, is decoded on its own (R94). -/
theorem decodeRaw_append_short {A G : List Byte} {c : Byte} (whole : A.length % 4 = 0) (symbol : inAlphabet c = true) :
    decodeRaw (A ++ (G ++ [c])) = decodeGroups A ++ decodeGroups (G ++ [c]) := by
  rw [decodeRaw_of_getLast, decodeGroups_append A _ whole]
  intro d hd
  rw [← List.append_assoc, List.getLast?_concat, Option.some.injEq] at hd
  exact hd ▸ ne_padCode_of_inAlphabet symbol

/-- Of the second of two characters only the high 2 bits of its index are used (R92). -/
theorem decodeGroups_two_congr {c1 c1' : Byte} (c0 : Byte)
    (high : (rlut c1).2.extractLsb' 4 2 = (rlut c1').2.extractLsb' 4 2) :
    decodeGroups [c0, c1] = decodeGroups [c0, c1'] := by
  simp only [decodeGroups, decGroup, rcmb, rcmbByte0_eq_field, high]

/-- Of the third of three characters only the high 4 bits of its index are used (R92). -/
theorem decodeGroups_three_congr {c2 c2' : Byte} (c0 c1 : Byte)
    (high : (rlut c2).2.extractLsb' 2 4 = (rlut c2').2.extractLsb' 2 4) :
    decodeGroups [c0, c1, c2] = decodeGroups [c0, c1, c2'] := by
  simp only [decodeGroups, decGroup, rcmb, rcmbByte1_eq_field, high]

/-- Settles O40: the padding is set aside whatever its count, and a last group is decoded by the bits it uses. -/
theorem noCanonicalFormCheck : Obligations.NoCanonicalFormCheck := by
  refine ⟨fun A k nonempty symbols hk => ⟨isValidText_append_pads nonempty hk symbols, ?_⟩,
    fun A c0 c1 c1' whole symbol symbol' high => ?_, fun A c0 c1 c2 c2' whole symbol symbol' high => ?_⟩
  · have unpadded : decodeRaw A = decodeGroups A := by simpa using decodeRaw_append_pads (Nat.zero_le 2) symbols
    rw [decodeRaw_append_pads hk symbols, unpadded]
  · calc decodeRaw (A ++ [c0, c1])
        = decodeGroups A ++ decodeGroups [c0, c1] := decodeRaw_append_short (G := [c0]) whole symbol
      _ = decodeGroups A ++ decodeGroups [c0, c1'] := by rw [decodeGroups_two_congr c0 high]
      _ = decodeRaw (A ++ [c0, c1']) := (decodeRaw_append_short (G := [c0]) whole symbol').symm
  · calc decodeRaw (A ++ [c0, c1, c2])
        = decodeGroups A ++ decodeGroups [c0, c1, c2] := decodeRaw_append_short (G := [c0, c1]) whole symbol
      _ = decodeGroups A ++ decodeGroups [c0, c1, c2'] := by rw [decodeGroups_three_congr c0 c1 high]
      _ = decodeRaw (A ++ [c0, c1, c2']) := (decodeRaw_append_short (G := [c0, c1]) whole symbol').symm

/-! ## The commands -/

section
variable {s : State} {T : List Byte} (operand : s.HoldsOperand T)
include operand

theorem exec_decode_of_valid (valid : isValidText T = true) :
    exec .decode s = .next (publish s (decodeRaw T) true false) := by
  simp only [exec_of_holds operand, resultOf, okOf, errOf, valid, if_true, Bool.not_true]

theorem exec_tryDecode_of_valid (valid : isValidText T = true) :
    exec .tryDecode s = .next (publish s (decodeRaw T) true false) := by
  simp only [exec_of_holds operand, resultOf, okOf, errOf, valid, if_true]

/-- An invalid text raises `InvalidEncoding` (R89). -/
theorem exec_decode_of_invalid (invalid : isValidText T = false) : exec .decode s = .next (raiseInvalidEncoding s) := by
  simp only [exec_of_holds operand, resultOf, okOf, errOf, invalid, Bool.false_eq_true, if_false, Bool.not_false,
    raiseInvalidEncoding]

/-- TRYDECODE answers an invalid text with `OK = 0` (R90). -/
theorem exec_tryDecode_of_invalid (invalid : isValidText T = false) :
    exec .tryDecode s = .next (publish s [] false false) := by
  simp only [exec_of_holds operand, resultOf, okOf, errOf, invalid, Bool.false_eq_true, if_false]

end

/-- TRYDECODE has a byte for a valid text and none for another (R90). -/
theorem isValidText_iff_one_le_result (T : List Byte) :
    isValidText T = true ↔ 1 ≤ (resultOf .tryDecode T).length := by
  cases valid : isValidText T with
  | true => simpa [resultOf, valid] using one_le_decodeRaw_length (one_le_effLen_of_isValidText valid)
  | false => simp [resultOf, valid]

/-- Settles O6: the two outcomes of DECODE, each a published result. -/
theorem decodeCompletesOrRaises : Obligations.DecodeCompletesOrRaises := by
  refine ⟨by decide, fun s T operand => ⟨fun valid => ?_, fun invalid => ?_⟩⟩
  · rw [exec_decode_of_valid operand valid, ← statusCompleted_ok]
    exact ⟨one_le_decodeRaw_length (one_le_effLen_of_isValidText valid), rfl⟩
  · rw [exec_decode_of_invalid operand invalid, ← statusCompleted_raised]
    rfl

/-- Settles O7: the two outcomes of TRYDECODE; both commands publish the same result, with `ERR` apart. -/
theorem tryDecodeCompletes : Obligations.TryDecodeCompletes := by
  refine ⟨by decide, fun s T operand => ⟨fun valid => ?_, fun invalid => ?_, _, _, exec_of_holds operand _,
    exec_of_holds operand _, rfl, rfl, ?_⟩⟩
  · rw [exec_tryDecode_of_valid operand valid, ← statusCompleted_ok]
    rfl
  · rw [exec_tryDecode_of_invalid operand invalid, ← statusCompleted_notOk]
    rfl
  · simp only [publish_ok, publish_err, publish_outlen]
    exact ⟨rfl, rfl, rfl, isValidText_iff_one_le_result T⟩

/-- Settles O43: the empty message encodes to the empty text, which is not valid; any other to a valid text that
decodes to it. -/
theorem blockRoundTrip : Obligations.BlockRoundTrip := by
  intro s B operand
  refine ⟨_, exec_of_holds operand .encode, fun u (encoded : u.HoldsOperand (encodeMsg B)) => ?_⟩
  rcases eq_or_ne B [] with empty | nonempty
  · subst empty
    exact ⟨_, exec_decode_of_invalid encoded rfl, absurd rfl, fun _ => ⟨rfl, rfl, statusCompleted_raised⟩⟩
  · refine ⟨_, exec_decode_of_valid encoded (isValidText_encodeMsg nonempty), fun _ => ?_,
      fun empty => absurd empty nonempty⟩
    rw [decodeRaw_encodeMsg]
    exact ⟨rfl, rfl, statusCompleted_ok⟩

end Sys2Proof.Machine
end

section
/-! The padding validator of 43_isvalid.md: the text as its effective-length part and the `PAD` set aside, the texts
that are valid, and the statements of that file settled from them. -/

namespace Sys2Proof.Machine

/-! ## The effective length -/

/-- A text that ends in another character than `PAD` has nothing set aside (R100). -/
theorem effLen_concat {c : Byte} (last : c ≠ padCode) (T : List Byte) : effLen (T ++ [c]) = T.length + 1 := by
  have final : ∀ d, (T ++ [c]).getLast? = some d → d ≠ padCode := by simp [last]
  simpa using effLen_append_pads (Nat.zero_le 2) final

/-- Two trailing `PAD` are set aside whatever stands before them, a third `PAD` too (R100). -/
theorem effLen_append_two_pads (A : List Byte) : effLen (A ++ [padCode, padCode]) = A.length := by
  simp [effLen, padAt]

/-- Every text is its effective-length part `A` and up to two `PAD`, and after fewer than two `A` does not end in `PAD`
(R100). -/
theorem exists_eq_append_pads (T : List Byte) :
    ∃ (A : List Byte) (k : Nat), T = A ++ List.replicate k padCode ∧ k ≤ 2 ∧ effLen T = A.length ∧
      (k < 2 → ∀ c, A.getLast? = some c → c ≠ padCode) := by
  by_cases two : ∃ A, T = A ++ [padCode, padCode]
  · obtain ⟨A, rfl⟩ := two
    exact ⟨A, 2, rfl, le_rfl, effLen_append_two_pads A, fun few => absurd few (Nat.lt_irrefl 2)⟩
  · by_cases one : ∃ A, T = A ++ [padCode]
    · obtain ⟨A, rfl⟩ := one
      have last : ∀ c, A.getLast? = some c → c ≠ padCode := by
        rintro c hc rfl
        obtain ⟨A', rfl⟩ := List.getLast?_eq_some_iff.1 hc
        exact two ⟨A', by simp⟩
      exact ⟨A, 1, rfl, Nat.le_succ 1, effLen_append_pads (k := 1) (Nat.le_succ 1) last, fun _ => last⟩
    · have last : ∀ c, T.getLast? = some c → c ≠ padCode := by
        rintro c hc rfl
        exact one (List.getLast?_eq_some_iff.1 hc)
      have whole : T = T ++ List.replicate 0 padCode := (List.append_nil T).symm
      refine ⟨T, 0, whole, Nat.zero_le 2, ?_, fun _ => last⟩
      simpa using effLen_append_pads (Nat.zero_le 2) last

/-- Settles O36: the effective-length part and the `PAD` set aside of `exists_eq_append_pads`. -/
theorem effectiveLengthStripsPadding : Obligations.EffectiveLengthStripsPadding := by
  intro T
  obtain ⟨A, k, text, few, effective, last⟩ := exists_eq_append_pads T
  have part : T.take (effLen T) = A := by rw [effective, text, List.take_left]
  have length : T.length = effLen T + k := by rw [effective, text, List.length_append, List.length_replicate]
  have aside : T.length - effLen T = k := by omega
  rw [part, aside]
  exact ⟨effLen_le T, by omega, text, fun fewer => last (by omega)⟩

/-- Only a text of at most two `PAD` and nothing else has effective length 0 (R102). -/
theorem effLen_eq_zero_iff (T : List Byte) : effLen T = 0 ↔ T = [] ∨ T = [padCode] ∨ T = [padCode, padCode] := by
  constructor
  · intro zero
    obtain ⟨-, few, text, -⟩ := effectiveLengthStripsPadding T
    rw [zero, List.take_zero, List.nil_append] at text
    rw [zero] at few
    rw [text]
    interval_cases T.length <;> simp [List.replicate]
  · rintro (rfl | rfl | rfl) <;> decide

/-! ## The valid texts -/

/-- A text that starts with `PAD` is not valid (R101). -/
@[simp] theorem isValidText_padCode_cons (T : List Byte) : isValidText (padCode :: T) = false := by
  simp [isValidText]

/-- A character of the effective-length part that is absent from the alphabet makes the text invalid (R101). -/
theorem isValidText_eq_false_of_mem {T : List Byte} {c : Byte} (part : c ∈ T.take (effLen T))
    (absent : inAlphabet c = false) : isValidText T = false := by
  refine Bool.eq_false_of_not_eq_true fun valid => ?_
  rw [inAlphabet_of_isValidText valid c part] at absent
  cases absent

/-- R101's characterisation of the valid texts. -/
theorem isValidText_iff (T : List Byte) : isValidText T = true ↔
    ∃ (A : List Byte) (k : Nat), A ≠ [] ∧ (∀ c ∈ A, inAlphabet c = true) ∧ k ≤ 2 ∧
      T = A ++ List.replicate k padCode := by
  constructor
  · intro valid
    obtain ⟨-, few, text, -⟩ := effectiveLengthStripsPadding T
    have left : 1 ≤ (T.take (effLen T)).length := by
      rw [length_take_effLen]
      exact one_le_effLen_of_isValidText valid
    exact ⟨T.take (effLen T), T.length - effLen T, List.ne_nil_of_length_pos left, inAlphabet_of_isValidText valid,
      by omega, text⟩
  · rintro ⟨A, k, nonempty, symbols, few, rfl⟩
    exact isValidText_append_pads nonempty few symbols

/-- Settles O37: the effective-length part of a valid text is its alphabet characters. -/
theorem validityCharacterised : Obligations.ValidityCharacterised :=
  ⟨isValidText_iff, rfl, isValidText_padCode_cons⟩

/-- After a first `PAD` no alphabet character can save the effective-length part: it is of the alphabet only where it
is empty (R102). -/
theorem all_inAlphabet_padCode_cons_iff (T : List Byte) :
    ((padCode :: T).take (effLen (padCode :: T))).all inAlphabet = true ↔ effLen (padCode :: T) = 0 := by
  cases effLen (padCode :: T) <;> simp

/-- Settles O38: the test is passed over after a first character other than `PAD`, and after a first `PAD` it changes
the answer where the effective-length part is empty. -/
theorem firstCharacterTestDecidesTwoTexts : Obligations.FirstCharacterTestDecidesTwoTexts := by
  refine ⟨fun T valid => ?_, fun T nonempty => ?_⟩
  · have left := one_le_effLen_of_isValidText valid
    exact ⟨left, one_le_decodeRaw_length left⟩
  · obtain ⟨c, T, rfl⟩ := List.exists_cons_of_ne_nil nonempty
    by_cases first : c = padCode
    · subst first
      rw [isValidText_padCode_cons, ne_comm, Bool.ne_false_iff, all_inAlphabet_padCode_cons_iff, effLen_eq_zero_iff]
      simp
    · simp [isValidText_cons first, first]

/-- A text that ends in a character that is neither `PAD` nor of the alphabet is not valid (R103). -/
theorem isValidText_concat_eq_false {c : Byte} (last : c ≠ padCode) (absent : inAlphabet c = false) (T : List Byte) :
    isValidText (T ++ [c]) = false := by
  refine isValidText_eq_false_of_mem (c := c) ?_ absent
  rw [List.take_of_length_le (by simp [effLen_concat last])]
  exact List.mem_concat_self

/-- Settles O39: whitespace at the end is in the effective-length part, and a whitespace-only text ends in it. -/
theorem whitespaceRejected : Obligations.WhitespaceRejected := by
  refine ⟨rfl, fun W foreign => ?_⟩
  have ending : ∀ (T : List Byte) (c : Byte), c ∈ W →
      effLen (T ++ [c]) = T.length + 1 ∧ isValidText (T ++ [c]) = false := fun T c space => by
    obtain ⟨absent, last⟩ := foreign c space
    exact ⟨effLen_concat last T, isValidText_concat_eq_false last absent T⟩
  refine ⟨fun T nonempty spaces => ?_, fun T ⟨c, part, space⟩ => ?_, ending⟩
  · obtain ⟨T, c, rfl⟩ := (List.eq_nil_or_concat' T).resolve_left nonempty
    simpa using ending T c (spaces c List.mem_concat_self)
  · exact isValidText_eq_false_of_mem part (foreign c space).1

/-! ## The command -/

/-- The status word of a completed command without an exception. -/
theorem statusCompleted_answer (ok : Bool) : statusCompleted ok false = if ok then 0b0110#4 else 0b0010#4 := by
  cases ok
  · exact statusCompleted_notOk
  · exact statusCompleted_ok

/-- Settles O8: ISVALID publishes no output with the answer, which the three commands have as their `OK`. -/
theorem isValidCompletes : Obligations.IsValidCompletes := by
  refine ⟨by decide, fun s T operand => ⟨?_, _, _, _, exec_of_holds operand _, exec_of_holds operand _,
    exec_of_holds operand _, ?_⟩⟩
  · rw [exec_of_holds operand, ← statusCompleted_answer]
    rfl
  · simp only [publish_ok]
    exact ⟨rfl, rfl, rfl⟩

end Sys2Proof.Machine
end

section
/-! The exceptions of 60_exceptions.md: the cause and the effect of `InvalidEncoding`, the causes for which a step
stops, and the pins, and the statements of that file settled from them. -/

namespace Sys2Proof.Machine

/-! ## `InvalidEncoding` -/

/-- R112: `ERR` is the flag of DECODE on an invalid text, and of nothing else. -/
theorem errOf_eq_true_iff (i : Instr) (X : List Byte) : errOf i X = true ↔ i = .decode ∧ isValidText X = false := by
  constructor
  · intro raised
    obtain ⟨rfl, invalid, _⟩ := eq_decode_of_errOf raised
    exact ⟨rfl, invalid⟩
  · rintro ⟨rfl, invalid⟩
    simp only [errOf, invalid, Bool.not_false]

/-- The state in which the exception leaves the block (R110, R116). -/
theorem raiseInvalidEncoding_eq (s : State) :
    raiseInvalidEncoding s = { s with out := [], outlen := 0, status := 0b1010#4 } := by
  rw [← statusCompleted_raised]
  rfl

/-- A command that raises publishes the same whatever its operand. -/
theorem publish_eq_raiseInvalidEncoding {i : Instr} {X : List Byte} (raised : errOf i X = true) (s : State) :
    publish s (resultOf i X) (okOf i X) (errOf i X) = raiseInvalidEncoding s := by
  obtain ⟨_, notOk, noResult⟩ := eq_decode_of_errOf raised
  rw [notOk, noResult, raised, raiseInvalidEncoding]

/-- Settles O10: `ERR` of what a command publishes is `errOf`, and with it set the publication is the exception. -/
theorem onlyDecodeRaisesInvalidEncoding : Obligations.OnlyDecodeRaisesInvalidEncoding := by
  intro i s T operand
  refine ⟨_, exec_of_holds operand i, ?_, fun raised => ?_⟩
  · rw [publish_err]
    exact errOf_eq_true_iff i T
  · rw [publish_err] at raised
    rw [publish_eq_raiseInvalidEncoding raised, raiseInvalidEncoding_eq]

/-! ## The causes for which a step stops -/

/-- A move that the wires of a block of this `LENW` cannot carry (R26, R55): an action or an edge out of range, or a
`COPYBACK` that goes on reading past the last cell of `OUT`. -/
def MoveTooWide (lenw : Nat) (m : HostMove) : Prop :=
  (∃ a, m = .act a ∧ actionFits lenw a = false) ∨ (∃ p, m = .edge p ∧ portsFit lenw p = false) ∨
    ∃ n ys, m = .copyOut n ys ∧ 2 ^ (lenw + 1) ≤ ys.length

/-- All that a checked action can do: be made, or fault out of range. -/
theorem hostActChecked_cases (a : HostAction) (s : State) :
    hostActChecked a s = .next (hostAct a s) ∨
    (actionFits s.lenw a = false ∧ hostActChecked a s = .fault .portTooNarrow) := by
  unfold hostActChecked
  cases actionFits s.lenw a with
  | true => exact .inl rfl
  | false => exact .inr ⟨rfl, rfl⟩

/-- A host's move is made, or faults because the ports cannot carry it. -/
theorem hostMove_cases (m : HostMove) (s : State) :
    (∃ t, hostMove m s = .next t) ∨ (MoveTooWide s.lenw m ∧ hostMove m s = .fault .portTooNarrow) := by
  cases m with
  | act a =>
    rcases hostActChecked_cases a s with made | ⟨wide, stop⟩
    · exact .inl ⟨_, made⟩
    · exact .inr ⟨.inl ⟨a, rfl, wide⟩, stop⟩
  | edge p =>
    cases fits : portsFit s.lenw p with
    | true => exact .inl ⟨_, if_pos fits⟩
    | false => exact .inr ⟨.inr (.inl ⟨p, rfl, fits⟩), if_neg (Bool.eq_false_iff.1 fits)⟩
  | reset => exact .inl ⟨_, rfl⟩
  | wait => exact .inl ⟨_, rfl⟩
  | read => exact .inl ⟨_, rfl⟩
  | readUnlessErr => exact .inl ⟨_, rfl⟩
  | copyback => exact .inl ⟨_, rfl⟩
  | copyOut n ys =>
    rcases hostActChecked_cases (.rout ys.length) (pushMoves (copyNext n (ys ++ [outData s ys.length])) s) with
      made | ⟨wide, stop⟩
    · exact .inl ⟨_, made⟩
    · exact .inr ⟨.inr (.inr ⟨n, ys, rfl, Nat.le_of_not_lt (of_decide_eq_false wide)⟩), stop⟩

/-- A turn of the host goes on, or faults because the ports cannot carry its next move. -/
theorem hostTurn_cases (s : State) :
    (∃ t, hostTurn s = .next t) ∨
    ((∃ m ms, s.pending = m :: ms ∧ MoveTooWide s.lenw m) ∧ hostTurn s = .fault .portTooNarrow) := by
  unfold hostTurn
  cases s.pending with
  | nil => exact .inl ⟨s, rfl⟩
  | cons m ms =>
    rcases hostMove_cases m { s with pending := ms } with made | ⟨wide, stop⟩
    · exact .inl made
    · exact .inr ⟨⟨m, ms, rfl, wide⟩, stop⟩

/-- An operand that is not written has a cell without a value. -/
theorem exists_unwritten_cell {s : State} (unwritten : ¬s.OperandWritten) :
    ∃ k, k < s.inlen ∧ memRead s.inBuf k = none := by
  simpa [State.OperandWritten] using unwritten

/-- A step goes on, or is the completion step of a command whose operand has an unwritten cell, or is a move of the host
that the ports cannot carry (R113). -/
theorem step_outcome (s : State) :
    (∃ t, step s = .next t) ∨
    ((s.busy = true ∧ ∃ k, k < s.inlen ∧ memRead s.inBuf k = none) ∧ step s = .fault .unwrittenOperandCell) ∨
    ((∃ m ms, s.pending = m :: ms ∧ MoveTooWide s.lenw m) ∧ step s = .fault .portTooNarrow) := by
  rcases step_cases s with ⟨busy, _, he⟩ | ⟨_, _, he⟩ | ⟨_, he⟩ <;> rw [he]
  · rcases exec_cases (decodeCommand s.cmd) (advance s) with ⟨_, _, completes⟩ | ⟨unwritten, stop⟩
    · exact .inl ⟨_, completes⟩
    · exact .inr (.inl ⟨⟨busy, exists_unwritten_cell (s := advance s) unwritten⟩, stop⟩)
  · exact (hostTurn_cases (advance s)).imp_right .inr
  · exact (hostTurn_cases s).imp_right .inr

/-- Settles O51: of the three outcomes of a step none refuses, and each fault is the outcome of its own cause. -/
theorem stepsStopOnlyForTheseCauses : Obligations.StepsStopOnlyForTheseCauses := by
  intro s
  rcases step_outcome s with ⟨t, h⟩ | ⟨unwritten, h⟩ | ⟨wide, h⟩ <;> rw [h]
  · exact ⟨nofun, nofun, nofun⟩
  · exact ⟨nofun, fun _ => unwritten, nofun⟩
  · exact ⟨nofun, nofun, fun _ => wide⟩

/-! ## The pins -/

/-- Settles O52: the pins are the bits by definition, and R18 has `ERR` only with `DONE`. -/
theorem statusPinsCopyFlags : Obligations.StatusPinsCopyFlags := by
  refine fun s => ⟨rfl, rfl, fun inv raised => ?_⟩
  obtain ⟨done, _⟩ := inv.flags.errMeans raised
  exact done

end Sys2Proof.Machine
end

section
/-! Reset and the hazards of 70_reset_and_hazards.md: reset at an edge, what the host meets while a command runs, the
life of a result, and the completion of a started command, and the statements of that file settled from them. -/

namespace Sys2Proof.Machine

/-! ## A started command completes -/

/-- A plain move made while a command runs leaves the block and the schedule, and adds at most itself to the program
again (R57, R130, R131). -/
theorem hostMove_of_plainMove {s : State} {m : HostMove} (busy : s.busy = true) (plain : plainMove s.lenw m = true) :
    ∃ t, hostMove m s = .next t ∧ s.SameBlock t ∧ t.schedule = s.schedule ∧
      ∀ n ∈ t.pending, n = m ∨ n ∈ s.pending := by
  cases m with
  | act a =>
    obtain ⟨schedule, pending⟩ := hostAct_schedule a s
    exact ⟨hostAct a s, if_pos plain, hostAct_of_busy busy a, schedule, fun n mem => .inr (pending ▸ mem)⟩
  | wait =>
    refine ⟨_, hostMove_wait s, ⟨rfl, rfl, rfl, rfl, rfl, rfl, rfl⟩, rfl, fun n mem => ?_⟩
    simp only at mem
    split at mem
    · exact .inr mem
    · exact List.mem_cons.1 mem
  | _ => cases plain

/-- A turn that the schedule gives to a host with a plain program leaves the block of the running command and a plain
program, one entry of the schedule used. -/
theorem step_of_plainProgram {s : State} {rest : List Bool} (busy : s.busy = true) (turn : s.schedule = true :: rest)
    (plain : ∀ m ∈ s.pending, plainMove s.lenw m = true) :
    ∃ t, step s = .next t ∧ s.SameBlock t ∧ t.schedule = rest ∧ ∀ m ∈ t.pending, plainMove t.lenw m = true := by
  rcases step_cases s with ⟨_, engine, _⟩ | ⟨_, _, host⟩ | ⟨idle, _⟩
  · rw [turn] at engine
    cases engine
  · have used : (advance s).schedule = rest := congrArg List.tail turn
    rw [host]
    cases next : s.pending with
    | nil => exact ⟨advance s, by rw [hostTurn, advance_pending, next], advance_sameBlock s, used, by simp [next]⟩
    | cons m ms =>
      rw [next] at plain
      obtain ⟨made, others⟩ := List.forall_mem_cons.1 plain
      obtain ⟨t, move, same, kept, again⟩ := hostMove_of_plainMove (s := { advance s with pending := ms }) busy made
      have lenw : t.lenw = s.lenw := same.1
      refine ⟨t, by rw [hostTurn, advance_pending, next]; exact move, same, kept.trans used, fun n mem => ?_⟩
      rw [lenw]
      rcases again n mem with rfl | mem
      exacts [made, others n mem]
  · exact absurd (idle.symm.trans busy) Bool.false_ne_true

/-- A run of one step, where the schedule does not give the host the move, is the completion step (R21). -/
theorem run_of_engine {s : State} {X : List Byte} (busy : s.busy = true) (operand : s.HoldsOperand X)
    (turn : s.schedule.head? ≠ some true) :
    Host.Core.run Sys2Proof.core 1 s =
      .next (publish (advance s) (resultOf (decodeCommand s.cmd) X) (okOf (decodeCommand s.cmd) X)
        (errOf (decodeCommand s.cmd) X)) := by
  have operand' : (advance s).HoldsOperand X := (HoldsOperand_congr rfl rfl).2 operand
  exact run_succ ((step_of_engine busy turn).trans (exec_of_holds operand' _)) 0

/-- After the host's turns before the engine's, the completion step publishes the result of the operand on the block as
it stood: by induction on the schedule (R134). -/
theorem run_of_plainProgram {s : State} {X : List Byte} (busy : s.busy = true) (operand : s.HoldsOperand X)
    (plain : ∀ m ∈ s.pending, plainMove s.lenw m = true) :
    ∃ u, s.SameBlock u ∧ Host.Core.run Sys2Proof.core ((s.schedule.takeWhile id).length + 1) s =
      .next (publish u (resultOf (decodeCommand s.cmd) X) (okOf (decodeCommand s.cmd) X)
        (errOf (decodeCommand s.cmd) X)) := by
  induction sched : s.schedule generalizing s with
  | nil => exact ⟨advance s, advance_sameBlock s, run_of_engine busy operand (by simp [sched])⟩
  | cons turn rest ih =>
    cases turn with
    | false => exact ⟨advance s, advance_sameBlock s, run_of_engine busy operand (by simp [sched])⟩
    | true =>
      obtain ⟨t, move, same, used, plain'⟩ := step_of_plainProgram busy sched plain
      have busy' : t.busy = true := (busy_of_sameBlock same).trans busy
      have ⟨_, hbuf, hinlen, _, _, hcmd, _⟩ := same
      obtain ⟨u, same', run⟩ := ih busy' ((HoldsOperand_congr hbuf hinlen).2 operand) plain' used
      rw [hcmd] at run
      exact ⟨u, SameBlock_trans same same', (run_succ move _).trans run⟩

/-- Settles O50: the run ends with the publication of the operand's result, on a block that the host's turns left. -/
theorem startedCommandCompletes : Obligations.StartedCommandCompletes := by
  intro s X busy operand plain
  obtain ⟨u, ⟨_, hbuf, hinlen, _, _, hcmd, _⟩, run⟩ := run_of_plainProgram busy operand plain
  exact ⟨_, run, publish_done .., publish_busy .., rfl, rfl, publish_ok .., publish_err .., hbuf, hinlen, hcmd⟩

/-! ## The operand of a command -/

/-- Settles O12: a command completes exactly on an operand that is written cell by cell; one of no cells is. -/
theorem unwrittenOperandFaults : Obligations.UnwrittenOperandFaults := by
  intro i s
  have completes : s.OperandWritten → ∃ t, exec i s = .next t := fun written => by
    obtain ⟨X, operand⟩ := operandWritten_iff.1 written
    exact ⟨_, exec_of_holds operand i⟩
  refine ⟨fun ⟨k, inOperand, unwritten⟩ => exec_of_unwritten (fun written => ?_) i,
    fun cells => completes fun k hk => ?_, fun empty => completes fun k hk => ?_⟩
  · simpa [unwritten] using written k inOperand
  · exact Option.isSome_iff_ne_none.2 (cells k hk)
  · exact absurd (empty ▸ hk) (Nat.not_lt_zero k)

/-! ## Reset at an edge -/

/-- R54: the register read of an edge is the read of the register that `reg_sel` names. -/
theorem hostAct_regReadAction (sel : BitVec 2) (s : State) : hostAct (regReadAction sel) s = returnReg s sel := by
  unfold regReadAction
  split_ifs with cmd inlen status
  · rw [cmd]; rfl
  · rw [inlen]; rfl
  · rw [status]; rfl
  · have outlen : sel = 3#2 := by bv_omega
    rw [outlen]; rfl

/-- The reads of an edge that writes no register return the register's value, and then a cell of `OUT` (R26). -/
theorem portReads_returned {p : Ports} (read : p.regWe = false) (s : State) :
    (hostActs (portReads p) s).returned.tail = .reg p.regSel (regRead s p.regSel) :: s.returned := by
  have reads : portReads p = [regReadAction p.regSel, .rout p.outIdx] := by simp [portReads, read]
  calc (hostActs (portReads p) s).returned.tail
      = (hostAct (regReadAction p.regSel) s).returned := by rw [reads]; rfl
    _ = .reg p.regSel (regRead s p.regSel) :: s.returned := by rw [hostAct_regReadAction, returnReg_returned]

/-- Settles O24: the edge resets the block first and then makes its reads alone. -/
theorem resetEdgeReachesResetValues : Obligations.ResetEdgeReachesResetValues := by
  intro s p reset
  have values := resetOf_sameBlock_resetBlock s
  refine ⟨SameBlock_trans values (clockEdge_of_reset reset s), fun read => ?_, rfl, values⟩
  have edge : clockEdge p s = hostActs (portReads p) (resetBlock s) := by simp [clockEdge, reset]
  rw [edge, portReads_returned read, regRead_of_sameBlock values, resetBlock_returned]

/-! ## The life of a result -/

/-- With no command running a step is the host's next move, on the block as it stands. -/
theorem hostMove_of_step_idle {s t : State} {m : HostMove} {ms : List HostMove} (idle : s.busy = false)
    (next : s.pending = m :: ms) (h : step s = .next t) : ∃ u, s.SameBlock u ∧ hostMove m u = .next t := by
  rw [step_of_hostMove (.inl idle) next] at h
  refine ⟨_, ?_, h⟩
  exact ⟨rfl, rfl, rfl, rfl, rfl, rfl, rfl⟩

/-- R20, R133: a move that carries a START, made with no command running, destroys the result and starts the command. -/
theorem hostMove_of_startMove {op : BitVec 2} {m : HostMove} {s t : State} (start : StartMove op m)
    (idle : s.busy = false) (h : hostMove m s = .next t) :
    t.out = [] ∧ t.outlen = 0 ∧ t.status = statusRunning ∧ t.cmd = op := by
  rcases start with rfl | ⟨p, rfl, running, write, command, rfl⟩
  · obtain ⟨_, rfl⟩ := hostActChecked_next h
    rw [hostAct, startCommand_of_idle idle]
    exact ⟨rfl, rfl, rfl, rfl⟩
  · obtain ⟨_, rfl⟩ := hostMove_edge_next h
    exact clockEdge_start running write command idle

/-- R125: a move that is a reset leaves the reset block. -/
theorem hostMove_of_resetMove {m : HostMove} {s t : State} (reset : ResetMove m) (h : hostMove m s = .next t) :
    (State.resetOf s.lenw).SameBlock t := by
  rcases reset with rfl | ⟨p, rfl, reset⟩
  · cases h
    exact resetOf_sameBlock_resetBlock s
  · obtain ⟨_, rfl⟩ := hostMove_edge_next h
    exact SameBlock_trans (resetOf_sameBlock_resetBlock s) (clockEdge_of_reset reset s)

/-- R133: with no command running, a step whose host move is neither a START nor a reset leaves the result. -/
theorem step_result_of_idle {s t : State} (idle : s.busy = false) (h : step s = .next t)
    (other : ¬∃ m ms, s.pending = m :: ms ∧ (ResetMove m ∨ ∃ op, StartMove op m)) :
    t.out = s.out ∧ t.outlen = s.outlen ∧ t.status = s.status := by
  rcases step_of_idle idle h with ⟨_, rfl⟩ | ⟨m, ms, next, move⟩
  · exact ⟨rfl, rfl, rfl⟩
  · have idle' : ({ s with pending := ms } : State).busy = false := idle
    rcases hostMove_resultAfterMove idle' move with ⟨op, start, _⟩ | ⟨reset, _⟩ | kept
    · exact absurd ⟨m, ms, next, .inr ⟨op, start⟩⟩ other
    · exact absurd ⟨m, ms, next, .inl reset⟩ other
    · exact kept

/-- Settles O47: the effect of the host's move by its three cases, and the frame of a publication. -/
theorem resultLastsUntilStartOrReset : Obligations.ResultLastsUntilStartOrReset := by
  refine ⟨fun s t idle h => ⟨fun m ms op next start => ?_, fun m ms next reset => ?_, step_result_of_idle idle h⟩,
    fun i s t h => ?_⟩
  · obtain ⟨u, same, move⟩ := hostMove_of_step_idle idle next h
    rw [← statusRunning_eq]
    exact hostMove_of_startMove start ((busy_of_sameBlock same).trans idle) move
  · obtain ⟨u, _, move⟩ := hostMove_of_step_idle idle next h
    obtain ⟨_, _, _, hout, hlen, _, hst⟩ := hostMove_of_resetMove reset move
    exact ⟨hout, hlen, hst⟩
  · obtain ⟨X, _, rfl⟩ := exec_next h
    exact ⟨rfl, rfl⟩

/-! ## The host while a command runs -/

/-- Settles O16: each write asks for `BUSY = 0` first, and a write to a read-only register has no effect at all. -/
theorem writesWhileBusyIgnored : Obligations.WritesWhileBusyIgnored :=
  ⟨fun _ _ _ _ op busy => ⟨if_pos busy, if_pos busy, startCommand_of_busy busy op⟩, fun _ _ => ⟨rfl, rfl⟩⟩

/-- R131: while a command runs `STATUS` is `BUSY` alone. -/
theorem status_of_busy {s : State} (flags : s.FlagRules) (busy : s.busy = true) : s.status = statusRunning := by
  obtain ⟨done, ok, err, _⟩ := flags.busyMeans busy
  rw [status_eq_statusWord, done, ok, err, busy, statusRunning]

/-- Settles O17: the flags' relations fix `STATUS` and `OUTLEN` of a running command, and each read returns its
register. -/
theorem readsWhileBusy : Obligations.ReadsWhileBusy := by
  intro s inv busy
  obtain ⟨_, _, _, noResult⟩ := inv.flags.busyMeans busy
  have rstat : regRead s 2#2 = 0b0001 := congrArg BitVec.toNat (status_of_busy inv.flags busy)
  have rlen : regRead s 3#2 = 0 := noResult
  refine ⟨?_, ?_, fun i => ?_, rfl, rfl⟩
  · rw [hostAct, returnReg_returned, rstat]
  · rw [hostAct, returnReg_returned, rlen]
  · rw [outRead, noResult, if_neg (Nat.not_lt_zero i)]

/-- Settles O22: with no command running the step is the host's turn, and a host with no move does nothing. -/
theorem endedProgramHoldsState : Obligations.EndedProgramHoldsState := by
  intro s
  have ended : s.ended = true ↔ s.pending = [] ∧ s.busy = false := by simp [State.ended]
  refine ⟨ended, fun holds => ?_⟩
  obtain ⟨noMove, idle⟩ := ended.1 holds
  simp only [step, idle, Bool.false_eq_true, if_false, hostTurn, noMove]

end Sys2Proof.Machine
end
